-- ==== Sys2Proof/Word.lean ====
section
/-! DEFINITION. The word types of the block: a 64-bit port word, a byte, and the 32-bit word of the CRC
(spec/00_scope.md R5, R6). -/

namespace Sys2Proof

/-- A word of the command port, of the response port, or a packed word (R5 WORD, R60). -/
abbrev Word := BitVec 64

/-- An 8-bit word (R6). -/
abbrev Byte := BitVec 8

/-- The 32-bit word of the CRC computation (R159). -/
abbrev Word32 := BitVec 32

end Sys2Proof
end

