-- ==== Sys2Proof/Config.lean ====
section
/-! DEFINITION. What the spec leaves open (spec/00_scope.md R5, spec/92_eei_decisions.md "Open parameters"):
MAXLEN, COMPRESS and the sink's answer, and the one framing the spec does not define
(spec/93_implementation_defined.md U8). The opaque constants are free values: they have no body, so a claim
about them holds for every value. -/

namespace Sys2Proof

/-- Which COMPRESS a block has (R5, R190). A statement over every state covers both. -/
inductive Compressor where
  /-- Any function that meets the contract of R190 (log entry 4). -/
  | uninterpreted
  /-- The reference instance StoredDeflate of R203. -/
  | stored
  deriving DecidableEq, Repr

/-- The parameters a block is built with (R5, R29). No command writes them (R251). -/
structure Config where
  /-- MAXLEN: `none` is unbounded (R5, decision D8; log entry 3). -/
  maxLen : Option Nat
  /-- COMPRESS (R5, decision D15; log entry 5). -/
  compressor : Compressor
  deriving DecidableEq, Repr

/-- The byte sink's answer to one SinkWrite (R71): `ok`, or `fail` with a code that belongs to the platform. -/
inductive SinkAnswer where
  | ok
  | fail (code : Word)
  deriving DecidableEq, Repr, Inhabited

/-- FREE VALUE (log entry 4): the bytes an uninterpreted compressor produces. `compress` of
Machine/Deflate.lean lets it through exactly where it meets the contract of R190. -/
opaque Config.rawCompress : List Byte → List Byte

/-- FREE VALUE (log entry 6): the answer the environment draws for a write it has not settled before, given
all earlier writes and the bytes presented (R71: "chosen by the environment"). -/
opaque Config.sinkAnswer : List (List Byte) → List Byte → SinkAnswer

/-- FREE VALUE (log entry 9): the words of a response whose payload needs 2^48 words or more; R69 and U8 give
such a response no framing. The arguments are the status and the payload words. -/
opaque Config.oversizeFrame : Byte → List Word → List Word

end Sys2Proof
end

