-- ==== Sys2Proof/Syntax.lean ====
section
/-! DEFINITION. The nine commands of spec/30_encoding.md R65, one constructor per row of
spec/opcode_table.json. Operands are naturals (R63); WellFormed says which of them a command word can carry. -/

namespace Sys2Proof

/-- The register selector: header bit 8, 0 for COLS and 1 for ROWS (R21, R61). -/
inductive Sel where
  | cols
  | rows
  deriving DecidableEq, Repr

/-- The composition policy: header bit 10, 0 for INTERSECTION and 1 for UNION (R61, R121, R122). -/
inductive Policy where
  | intersection
  | union
  deriving DecidableEq, Repr

/-- A command with its operands, in the order the command's rule lists them. -/
inductive Instr where
  /-- BVNEW: construct one vector (R92). -/
  | bvnew (sel : Sel) (length : Nat) (val : Bool)
  /-- BVSET: write `val` to the visited elements (R93). -/
  | bvset (sel : Sel) (start stop step : Nat) (val : Bool)
  /-- BVGET: read one element (R94). -/
  | bvget (sel : Sel) (index : Nat)
  /-- BVPACK: serialize one vector (R140). -/
  | bvpack (sel : Sel)
  /-- APMNEW: construct both vectors (R110). -/
  | apmnew (width height : Nat) (val : Bool)
  /-- APMCLR: clear an interval in each vector (R111). -/
  | apmclr (x y width height : Nat)
  /-- EMITCFG: the hardware interface record (R143). -/
  | emitcfg (pol : Policy)
  /-- COMPOSE: derive the grid (R124). -/
  | compose (pol : Policy) (flip : Bool)
  /-- ENCODE: encode the grid and write it to the sink (R167). -/
  | encode
  deriving DecidableEq, Repr

/-- The other selector. -/
def Sel.other : Sel → Sel
  | .cols => .rows
  | .rows => .cols

end Sys2Proof
end

