-- ==== Sys2Proof/Machine/State.lean ====
section
/-! DEFINITION. The state of the block: the four pieces spec/10_state.md R20 names, the three ports of
spec/30_encoding.md R60 as data, and the configuration of spec/00_scope.md R5. -/

namespace Sys2Proof.Machine

/-- The content of a bit-vector register: `len` booleans, element 0 first (R21). `len` is the list's length. -/
abbrev BoolVec := List Bool

/-- The content of GRID: `h` rows from the top, each of `w` cells from the left (R24). The width stands by itself
because a grid of no rows still has one; `Grid.Wf` of Safety.lean says the rows agree with it (log entry 15). -/
structure Grid where
  w : Nat
  rows : List (List Bool)
  deriving DecidableEq, Repr

/-- The content of FILE (R25). -/
inductive FileState where
  /-- Nothing written since reset. -/
  | absent
  /-- The last successful ENCODE wrote exactly these bytes. -/
  | content (bytes : List Byte)
  /-- The last write failed: nothing may be assumed of the file (U3; log entry 10). -/
  | indeterminate
  deriving DecidableEq, Repr

/-- The six error kinds (R68, R221). -/
inductive ErrKind where
  | indexOutOfRange
  | unsupportedDimensions
  | ioFailure
  | notConstructed
  | invalidArgument
  | illegalCommand
  deriving DecidableEq, Repr

/-- The payload of an `Ok` response (R68). -/
inductive Payload where
  /-- BVNEW, BVSET, APMNEW, APMCLR, COMPOSE. -/
  | empty
  /-- BVGET. -/
  | bool (b : Bool)
  /-- BVPACK. -/
  | words (ws : List Word)
  /-- EMITCFG. -/
  | config (columnWords rowWords : List Word) (intersectionOnly : Bool)
  /-- ENCODE: the number of bytes written. -/
  | count (n : Nat)
  deriving DecidableEq, Repr

/-- The abstract response of a command (R68): the sink's code is the only `info` there is. -/
inductive Response where
  | ok (p : Payload)
  | err (k : ErrKind) (info : Option Word)
  deriving DecidableEq, Repr

/-- Whether the response emitted last still stands on the response port, and how the host takes responses (R257;
log entry 23). -/
inductive RespTaking where
  /-- The host takes every response as it is emitted. -/
  | prompt
  /-- No response stands on the port; the next one will stand until the host takes it. -/
  | free
  /-- A response stands on the port, and the block waits for the host to take it. -/
  | untaken
  deriving DecidableEq, Repr

/-- Why the machine stops with a fault: it never does. An error of this block is the response of the command that
caused it (R220), and every command runs to its response (R256), so there is no constructor (log entry 14). -/
inductive Fault where
  deriving DecidableEq, Repr

/-- Why the machine refuses an instruction. -/
inductive Refusal where
  /-- Raised by an arm of `exec` whose instruction has no meaning yet; safe, since nothing is claimed of it. No arm
  raises it. -/
  | notModelled (mnemonic : String)
  deriving DecidableEq, Repr

/-- The machine. The first four fields are the whole architectural state (R20). -/
structure State where
  /-- V[0] = COLS: `none` when nothing is constructed since reset (R21). -/
  cols : Option BoolVec
  /-- V[1] = ROWS (R21). -/
  rows : Option BoolVec
  /-- GRID (R24). -/
  grid : Option Grid
  /-- FILE (R25). -/
  file : FileState
  /-- The command port: words the host has sent and the block has not consumed (R60; log entry 1). -/
  cmdIn : List Word
  /-- The response port: every response emitted, oldest first (R60, R31; log entry 8). -/
  respOut : List Response
  /-- The response port: whether its last response has been taken (R257; log entry 23). -/
  taking : RespTaking
  /-- The byte port: answers the environment has settled, next one first (R71; log entry 6). -/
  sinkIn : List SinkAnswer
  /-- The byte port: every byte sequence presented to the sink, oldest first (R71, R31; log entry 8). -/
  sinkOut : List (List Byte)
  /-- MAXLEN and COMPRESS (R5), which no command writes (R251; log entry 3). -/
  conf : Config
  deriving DecidableEq, Repr

/-- The machine right after reset (R33, R250, R251), with nothing on any port and the default MAXLEN (D8). -/
def State.reset : State where
  cols := none
  rows := none
  grid := none
  file := .absent
  cmdIn := []
  respOut := []
  taking := .prompt
  sinkIn := []
  sinkOut := []
  conf := { maxLen := none, compressor := .uninterpreted }

end Sys2Proof.Machine
end

