-- ==== Sys2Proof/Machine/Operands.lean ====
section
/-! DEFINITION. The arithmetic of operands and index ranges: ceiling division (spec/00_scope.md R6), the visited set
and SetRange (spec/40_bitvector.md R90, R91), the capacity test (R92). All arithmetic is exact on naturals (R8). -/

namespace Sys2Proof.Machine

/-- `ceil_div(a, b)` (R6). -/
def ceilDiv (a b : Nat) : Nat := (a + b - 1) / b

/-- `i` is in Visited(start, stop, step) (R90). -/
def Visited (start stop step i : Nat) : Prop := ∃ j, i = start + j * step ∧ i < stop

/-- The same set as a test on `i`, for a stride of 1 or more. -/
def visits (start stop step i : Nat) : Bool :=
  decide (start ≤ i) && decide (i < stop) && (i - start) % step == 0

/-- The greatest visited index of a non-empty range (R90). -/
def lastVisited (start stop step : Nat) : Nat := start + (stop - 1 - start) / step * step

/-- SetRange(v, start, stop, step, value) (R91): `none` is `fail`. The bounds are tested before anything is written,
by the closed form R91 gives (`start < stop and last >= len`). -/
def setRange (v : BoolVec) (start stop step : Nat) (value : Bool) : Option BoolVec :=
  if start < stop ∧ v.length ≤ lastVisited start stop step then none
  else some (v.mapIdx fun i b => if visits start stop step i then value else b)

/-- A vector of this length may be constructed: MAXLEN is unbounded or not exceeded (R92, R110). -/
def fitsMax (conf : Config) (length : Nat) : Bool :=
  match conf.maxLen with
  | none => true
  | some m => decide (length ≤ m)

/-- A new vector, all elements at the fill value (R92). -/
def newVec (length : Nat) (fill : Bool) : BoolVec := List.replicate length fill

end Sys2Proof.Machine
end

