-- ==== Sys2Proof/WellFormed.lean ====
section
/-! DEFINITION. Which commands the command port can carry: every operand is an unsigned 64-bit word
(spec/30_encoding.md R63, spec/00_scope.md R5 OPW). -/

namespace Sys2Proof

/-- `n` is the natural number of some 64-bit operand word (R63). -/
abbrev FitsWord (n : Nat) : Prop := n < 2 ^ 64

/-- Every operand of the command fits its operand word. -/
abbrev WellFormed : Instr → Prop
  | .bvnew _ length _ => FitsWord length
  | .bvset _ start stop step _ => FitsWord start ∧ FitsWord stop ∧ FitsWord step
  | .bvget _ index => FitsWord index
  | .bvpack _ => True
  | .apmnew width height _ => FitsWord width ∧ FitsWord height
  | .apmclr x y width height => FitsWord x ∧ FitsWord y ∧ FitsWord width ∧ FitsWord height
  | .emitcfg _ => True
  | .compose _ _ => True
  | .encode => True

end Sys2Proof
end

