-- ==== Sys2Proof/Decode.lean ====
section
/-! DEFINITION. The command decoder of spec/30_encoding.md R61 to R67, total on every word stream, and the
encoder written from the same table (R65). -/

namespace Sys2Proof

/-- The nine rows of the opcode map (R65). -/
inductive Opcode where
  | bvnew | bvset | bvget | bvpack | apmnew | apmclr | emitcfg | compose | encode
  deriving DecidableEq, Repr

/-- Why a header is illegal, in the order R64 tests (R66). Every case is the same IllegalCommand. -/
inductive Illegal where
  | unknownOpcode
  | wrongOperandCount
  | reservedBitSet
  | unusedFieldSet
  deriving DecidableEq, Repr

/-- What stands at the head of a word stream (R64). -/
inductive Decoded where
  /-- Fewer words have arrived than the command has (R64: "the command is incomplete and is not executed"). -/
  | incomplete
  /-- An illegal header, with the words after its operand words (R66). -/
  | illegal (why : Illegal) (rest : List Word)
  /-- A command, with the words after it. -/
  | command (i : Instr) (rest : List Word)
  deriving DecidableEq, Repr

namespace Decode

/-- Header bits [7:0] (R61). -/
def opcodeField (h : Word) : Byte := h.extractLsb' 0 8

/-- Header bit [8] as a register selector (R61). -/
def selField (h : Word) : Sel := if h.getLsbD 8 then .rows else .cols

/-- Header bit [9] (R61). -/
def valField (h : Word) : Bool := h.getLsbD 9

/-- Header bit [10] as a policy (R61). -/
def polField (h : Word) : Policy := if h.getLsbD 10 then .union else .intersection

/-- Header bit [11] (R61). -/
def flipField (h : Word) : Bool := h.getLsbD 11

/-- Header bits [15:12]: how many operand words follow (R61, R62). -/
def nopsField (h : Word) : Nat := (h.extractLsb' 12 4).toNat

/-- Header bits [63:16] (R61). -/
def reservedField (h : Word) : BitVec 48 := h.extractLsb' 16 48

/-- The opcode number of a row (R65). -/
def opcodeNumber : Opcode → Byte
  | .bvnew => 0x01
  | .bvset => 0x02
  | .bvget => 0x03
  | .bvpack => 0x04
  | .apmnew => 0x10
  | .apmclr => 0x11
  | .emitcfg => 0x12
  | .compose => 0x20
  | .encode => 0x30

/-- The rows of R65, in the table's order. -/
def opcodes : List Opcode :=
  [.bvnew, .bvset, .bvget, .bvpack, .apmnew, .apmclr, .emitcfg, .compose, .encode]

/-- The row whose opcode equals the field, if any (R64). -/
def findOpcode (b : Byte) : Option Opcode := opcodes.find? fun op => opcodeNumber op == b

/-- The number of operand words of a row: its format H0 to H4 (R62, R65). -/
def nops : Opcode → Nat
  | .bvnew => 1
  | .bvset => 3
  | .bvget => 1
  | .bvpack => 0
  | .apmnew => 2
  | .apmclr => 4
  | .emitcfg => 0
  | .compose => 0
  | .encode => 0

/-- The row uses header field `sel` (R65). -/
def usesSel : Opcode → Bool
  | .bvnew | .bvset | .bvget | .bvpack => true
  | .apmnew | .apmclr | .emitcfg | .compose | .encode => false

/-- The row uses header field `val` (R65). -/
def usesVal : Opcode → Bool
  | .bvnew | .bvset | .apmnew => true
  | .bvget | .bvpack | .apmclr | .emitcfg | .compose | .encode => false

/-- The row uses header field `pol` (R65). -/
def usesPol : Opcode → Bool
  | .emitcfg | .compose => true
  | .bvnew | .bvset | .bvget | .bvpack | .apmnew | .apmclr | .encode => false

/-- The row uses header field `flip` (R65). -/
def usesFlip : Opcode → Bool
  | .compose => true
  | .bvnew | .bvset | .bvget | .bvpack | .apmnew | .apmclr | .emitcfg | .encode => false

/-- The `match` word of a row, as R65 and spec/opcode_table.json list it. -/
def matchWord : Opcode → Word
  | .bvnew => 0x0000000000001001
  | .bvset => 0x0000000000003002
  | .bvget => 0x0000000000001003
  | .bvpack => 0x0000000000000004
  | .apmnew => 0x0000000000002010
  | .apmclr => 0x0000000000004011
  | .emitcfg => 0x0000000000000012
  | .compose => 0x0000000000000020
  | .encode => 0x0000000000000030

/-- The `mask` word of a row, as R65 and spec/opcode_table.json list it. -/
def maskWord : Opcode → Word
  | .bvnew => 0xFFFFFFFFFFFFFCFF
  | .bvset => 0xFFFFFFFFFFFFFCFF
  | .bvget => 0xFFFFFFFFFFFFFEFF
  | .bvpack => 0xFFFFFFFFFFFFFEFF
  | .apmnew => 0xFFFFFFFFFFFFFDFF
  | .apmclr => 0xFFFFFFFFFFFFFFFF
  | .emitcfg => 0xFFFFFFFFFFFFFBFF
  | .compose => 0xFFFFFFFFFFFFF3FF
  | .encode => 0xFFFFFFFFFFFFFFFF

/-- A header field the row does not use is set (R61, R64). -/
def unusedFieldSet (op : Opcode) (h : Word) : Bool :=
  (!usesSel op && h.getLsbD 8) || (!usesVal op && h.getLsbD 9) ||
    (!usesPol op && h.getLsbD 10) || (!usesFlip op && h.getLsbD 11)

/-- The tests of R64 on a header, in its order. -/
def checkHeader (h : Word) : Except Illegal Opcode :=
  match findOpcode (opcodeField h) with
  | none => .error .unknownOpcode
  | some op =>
    if nopsField h ≠ nops op then .error .wrongOperandCount
    else if reservedField h ≠ 0 then .error .reservedBitSet
    else if unusedFieldSet op h then .error .unusedFieldSet
    else .ok op

/-- Operand word `j`, counted from 0, taken as it stands (R63). -/
def operand (ops : List Word) (j : Nat) : Nat := (ops.getD j 0).toNat

/-- The command of a row, from its header fields and operand words (R65). -/
def build (op : Opcode) (h : Word) (ops : List Word) : Instr :=
  match op with
  | .bvnew => .bvnew (selField h) (operand ops 0) (valField h)
  | .bvset => .bvset (selField h) (operand ops 0) (operand ops 1) (operand ops 2) (valField h)
  | .bvget => .bvget (selField h) (operand ops 0)
  | .bvpack => .bvpack (selField h)
  | .apmnew => .apmnew (operand ops 0) (operand ops 1) (valField h)
  | .apmclr => .apmclr (operand ops 0) (operand ops 1) (operand ops 2) (operand ops 3)
  | .emitcfg => .emitcfg (polField h)
  | .compose => .compose (polField h) (flipField h)
  | .encode => .encode

end Decode

/-- The decoding algorithm of R64. The length `1 + nops` is read from the header alone (R62, R75). -/
def decode : List Word → Decoded
  | [] => .incomplete
  | h :: ws =>
    if ws.length < Decode.nopsField h then .incomplete
    else
      match Decode.checkHeader h with
      | .error why => .illegal why (ws.drop (Decode.nopsField h))
      | .ok op => .command (Decode.build op h (ws.take (Decode.nopsField h))) (ws.drop (Decode.nopsField h))

namespace Encode

/-- Header bit `sel` (R61). -/
def selBit : Sel → Word
  | .cols => 0
  | .rows => 0x100

/-- Header bit `val` (R61). -/
def valBit : Bool → Word
  | false => 0
  | true => 0x200

/-- Header bit `pol` (R61). -/
def polBit : Policy → Word
  | .intersection => 0
  | .union => 0x400

/-- Header bit `flip` (R61). -/
def flipBit : Bool → Word
  | false => 0
  | true => 0x800

/-- The operand word of a natural (R63). -/
def operandWord (n : Nat) : Word := BitVec.ofNat 64 n

end Encode

/-- The row of a command (R65). -/
def opcodeOf : Instr → Opcode
  | .bvnew _ _ _ => .bvnew
  | .bvset _ _ _ _ _ => .bvset
  | .bvget _ _ => .bvget
  | .bvpack _ => .bvpack
  | .apmnew _ _ _ => .apmnew
  | .apmclr _ _ _ _ => .apmclr
  | .emitcfg _ => .emitcfg
  | .compose _ _ => .compose
  | .encode => .encode

/-- The header word of a command: its row's match word and its used fields (R61, R65). -/
def headerWord (i : Instr) : Word :=
  Decode.matchWord (opcodeOf i) |||
    match i with
    | .bvnew sel _ val => Encode.selBit sel ||| Encode.valBit val
    | .bvset sel _ _ _ val => Encode.selBit sel ||| Encode.valBit val
    | .bvget sel _ => Encode.selBit sel
    | .bvpack sel => Encode.selBit sel
    | .apmnew _ _ val => Encode.valBit val
    | .apmclr _ _ _ _ => 0
    | .emitcfg pol => Encode.polBit pol
    | .compose pol flip => Encode.polBit pol ||| Encode.flipBit flip
    | .encode => 0

/-- The operand words of a command, in order (R65). -/
def operandWords : Instr → List Word
  | .bvnew _ length _ => [Encode.operandWord length]
  | .bvset _ start stop step _ =>
    [Encode.operandWord start, Encode.operandWord stop, Encode.operandWord step]
  | .bvget _ index => [Encode.operandWord index]
  | .bvpack _ => []
  | .apmnew width height _ => [Encode.operandWord width, Encode.operandWord height]
  | .apmclr x y width height =>
    [Encode.operandWord x, Encode.operandWord y, Encode.operandWord width, Encode.operandWord height]
  | .emitcfg _ => []
  | .compose _ _ => []
  | .encode => []

/-- The words of a command, header first (R62, R74). -/
def encode (i : Instr) : List Word := headerWord i :: operandWords i

/-- The words of a number of `nbits` bits: 64 bits a word, the first word least significant, then zero words up
to the longest command (1 header and 15 operand words, R75). -/
def tableWords (nbits w : Nat) : List Word :=
  (List.range 16).map fun j => BitVec.ofNat 64 ((w % 2 ^ nbits) / 2 ^ (64 * j))

/-- The command the decoder reads from the bits `w`, numbered as spec/opcode_table.json numbers them. -/
def decodeTableWord (nbits w : Nat) : Option Instr :=
  match decode (tableWords nbits w) with
  | .command i _ => some i
  | .illegal _ _ => none
  | .incomplete => none

end Sys2Proof
end

