-- ==== Sys2Proof/Machine/Ops.lean ====
section
/-! DEFINITION. The named operations over the state: the pseudocode primitives of spec/00_scope.md R9, raising an
error (the block's only exception, spec/60_exceptions.md R220), the byte port (spec/30_encoding.md R71), taking a
command's words from the command port (R64), and what the host may do between steps
(spec/70_reset_and_hazards.md R250, R257). -/

namespace Sys2Proof.Machine

/-- Read bit-vector register `sel` (R9). -/
def readV (sel : Sel) (s : State) : Option BoolVec :=
  match sel with
  | .cols => s.cols
  | .rows => s.rows

/-- Write bit-vector register `sel` (R9). -/
def writeV (sel : Sel) (v : BoolVec) (s : State) : State :=
  match sel with
  | .cols => { s with cols := some v }
  | .rows => { s with rows := some v }

/-- Write both bit-vector registers, together (R48). -/
def writeBoth (c r : BoolVec) (s : State) : State := { s with cols := some c, rows := some r }

/-- Write the grid register (R9). -/
def writeGrid (g : Grid) (s : State) : State := { s with grid := some g }

/-- Write the record of the output file (R9). -/
def writeFile (f : FileState) (s : State) : State := { s with file := f }

/-- A response is emitted: it stands on the port unless the host takes it as it comes (R257). -/
def RespTaking.emitted : RespTaking → RespTaking
  | .prompt => .prompt
  | .free => .untaken
  | .untaken => .untaken

/-- Whatever stands on the port is taken (R257). -/
def RespTaking.taken : RespTaking → RespTaking
  | .prompt => .prompt
  | .free => .free
  | .untaken => .free

/-- Put a response on the response port (R60). -/
def respond (r : Response) (s : State) : State :=
  { s with respOut := s.respOut ++ [r], taking := s.taking.emitted }

/-- End a command with `Ok(payload)` (R9 `respond Ok`). -/
def done (p : Payload) (s : State) : Host.Outcome State Fault Refusal := .next (respond (.ok p) s)

/-- TAKING AN EXCEPTION (R9 `raise`, R220): end the command with `Err(k, info)`. Given the state the command started
from, it leaves everything but the response as it was (R229). Nothing is saved, masked or redirected (R231), and
there is nothing to return from (R232). -/
def raise (k : ErrKind) (info : Option Word) (s : State) : Host.Outcome State Fault Refusal :=
  .next (respond (.err k info) s)

/-- The sink's answer to the write of `bytes`: the next one the environment has settled, else a free value (R71). -/
def sinkAnswer (bytes : List Byte) (s : State) : SinkAnswer :=
  match s.sinkIn with
  | a :: _ => a
  | [] => Config.sinkAnswer s.sinkOut bytes

/-- The byte port after one SinkWrite: the write stands in its history and its answer is used up (R71). -/
def sinkWritten (bytes : List Byte) (s : State) : State :=
  { s with sinkIn := s.sinkIn.tail, sinkOut := s.sinkOut ++ [bytes] }

/-- The command port after the words before `rest` are consumed (R64). -/
def consumed (rest : List Word) (s : State) : State := { s with cmdIn := rest }

/-- A response stands on the port, so the block does not start the next command (R60, R257). -/
def responseStands (s : State) : Bool := s.taking == .untaken

/-- What stands next on the command port (R64). -/
def fetch (s : State) : Decoded := decode s.cmdIn

/-- The words of one command whose bits are `w`: its header and the operand words the header counts (R62). -/
def commandWords (nbits w : Nat) : List Word :=
  (tableWords nbits w).take (1 + Decode.nopsField ((tableWords nbits w).getD 0 0))

/-- The host puts words on the command port (R60, R257). -/
def hostSend (ws : List Word) (s : State) : State := { s with cmdIn := s.cmdIn ++ ws }

/-- The host takes the response that stands on the port, if one does (R257). -/
def hostTake (s : State) : State := { s with taking := s.taking.taken }

/-- From now on the host takes every response as it is emitted, and one that stands already (R257). -/
def hostPrompt (s : State) : State := { s with taking := .prompt }

/-- From now on a response stands until the host takes it (R257). -/
def hostHold (s : State) : State := { s with taking := if s.taking = .prompt then .free else s.taking }

/-- The environment settles one more answer of the sink (R71). -/
def sinkPrepare (a : SinkAnswer) (s : State) : State := { s with sinkIn := s.sinkIn ++ [a] }

/-- The reset event (R250): the four pieces of state lose their content and the command in progress is abandoned
without a response, and a response that stands on the port is waited for no longer. The ports' history, the sink's
settled answers and the configuration are no state of the block (R31, R251) and stay (log entry 13). -/
def applyReset (s : State) : State :=
  { s with cols := none, rows := none, grid := none, file := .absent, cmdIn := [], taking := s.taking.taken }

end Sys2Proof.Machine
end

