-- ==== Sys2Proof/Machine/BitVector.lean ====
section
/-! DEFINITION. The BitVector commands BVNEW, BVSET and BVGET (spec/40_bitvector.md). -/

namespace Sys2Proof.Machine

/-- BVNEW (R92). -/
def execBvnew (sel : Sel) (length : Nat) (val : Bool) (s : State) : Host.Outcome State Fault Refusal :=
  if fitsMax s.conf length then done .empty (writeV sel (newVec length val) s)
  else raise .invalidArgument none s

/-- BVSET (R93): existence, then the operand's domain, then the bounds, then the write. -/
def execBvset (sel : Sel) (start stop step : Nat) (val : Bool) (s : State) :
    Host.Outcome State Fault Refusal :=
  match readV sel s with
  | none => raise .notConstructed none s
  | some v =>
    if step = 0 then raise .invalidArgument none s
    else
      match setRange v start stop step val with
      | none => raise .indexOutOfRange none s
      | some v' => done .empty (writeV sel v' s)

/-- BVGET (R94). -/
def execBvget (sel : Sel) (index : Nat) (s : State) : Host.Outcome State Fault Refusal :=
  match readV sel s with
  | none => raise .notConstructed none s
  | some v =>
    match v[index]? with
    | none => raise .indexOutOfRange none s
    | some b => done (.bool b) s

end Sys2Proof.Machine
end

