-- ==== Sys2Proof/Machine/Compositor.lean ====
section
/-! DEFINITION. The PixelMaskCompositor and its command COMPOSE (spec/42_compositor.md). The formulas are those of
R121 and R122, as spec/90_conflicts.md C1 and C2 resolve them (log entry 17). -/

namespace Sys2Proof.Machine

/-- Whether a cell is included, from its column's and its row's flag (R121, R122, R123). -/
def included (pol : Policy) (c r : Bool) : Bool :=
  match pol with
  | .intersection => !(c && r)
  | .union => !(c || r)

/-- `rowsActive[y]` (R120): with `flip`, element `H - 1 - y`. Called for `y < H` only. -/
def rowActive (rows : BoolVec) (flip : Bool) (y : Nat) : Bool :=
  if flip then rows.getD (rows.length - 1 - y) false else rows.getD y false

/-- `Compose(cols, rows, policy, flipRows)` (R123): columns are never flipped (R120). -/
def compose (cols rows : BoolVec) (pol : Policy) (flip : Bool) : Grid where
  w := cols.length
  rows := (List.range rows.length).map fun y => cols.map fun c => included pol c (rowActive rows flip y)

/-- COMPOSE (R124). -/
def execCompose (pol : Policy) (flip : Bool) (s : State) : Host.Outcome State Fault Refusal :=
  match s.cols, s.rows with
  | some c, some r => done .empty (writeGrid (compose c r pol flip) s)
  | _, _ => raise .notConstructed none s

end Sys2Proof.Machine
end

