-- ==== Sys2Proof/Machine/Checksum.lean ====
section
/-! DEFINITION. Big-endian 32-bit fields (spec/00_scope.md R9), CRC-32 by loop and by table
(spec/44_raster_encoder.md R159, R160) and Adler-32 (spec/45_deflate_zlib.md R192). -/

namespace Sys2Proof.Machine

/-- `be32(n)`: most significant byte first (R9, R43). -/
def be32 (n : Nat) : List Byte :=
  [BitVec.ofNat 8 (n / 2 ^ 24), BitVec.ofNat 8 (n / 2 ^ 16), BitVec.ofNat 8 (n / 2 ^ 8), BitVec.ofNat 8 n]

/-- The value of a big-endian byte sequence (R43). -/
def beValue (bs : List Byte) : Nat := bs.foldl (fun n b => 256 * n + b.toNat) 0

/-- One of the 8 inner steps of R159. -/
def crcShift (c : Word32) : Word32 := if c.getLsbD 0 then (c >>> 1) ^^^ 0xEDB88320 else c >>> 1

/-- The inner loop of R159: 8 steps. -/
def crcShift8 (c : Word32) : Word32 :=
  crcShift (crcShift (crcShift (crcShift (crcShift (crcShift (crcShift (crcShift c)))))))

/-- One byte of R159: into the low 8 bits, then the inner loop. -/
def crcByte (c : Word32) (b : Byte) : Word32 := crcShift8 (c ^^^ b.setWidth 32)

/-- `Crc32(bs)` (R159). -/
def crc32 (bs : List Byte) : Word32 := bs.foldl crcByte 0xFFFFFFFF ^^^ 0xFFFFFFFF

/-- Table entry `T[n]` (R160): a constant, not state (R32). -/
def crcTable (n : Byte) : Word32 := crcShift8 (n.setWidth 32)

/-- One byte of the table-driven form (R160). -/
def crcTableByte (c : Word32) (b : Byte) : Word32 :=
  crcTable ((c ^^^ b.setWidth 32).setWidth 8) ^^^ (c >>> 8)

/-- The table-driven CRC-32 (R160). -/
def crc32ByTable (bs : List Byte) : Word32 := bs.foldl crcTableByte 0xFFFFFFFF ^^^ 0xFFFFFFFF

/-- One byte of Adler-32 (R192): the pair `(a, b)`. -/
def adlerByte (ab : Nat × Nat) (x : Byte) : Nat × Nat :=
  let a := (ab.1 + x.toNat) % 65521
  (a, (ab.2 + a) % 65521)

/-- `Adler32(bs)` (R192), a natural below 2^32. -/
def adler32 (bs : List Byte) : Nat :=
  let ab := bs.foldl adlerByte (1, 0)
  ab.2 * 65536 + ab.1

end Sys2Proof.Machine
end

