-- ==== Sys2Proof/Machine/Deflate.lean ====
section
/-! DEFINITION. The zlib and deflate reference of spec/45_deflate_zlib.md: the bit reader (R193), blocks (R194 to
R200), Inflate (R201), ZlibDecode (R202), the reference compressor StoredDeflate (R203) and the compressor COMPRESS
with its contract built in (R190). `none` is the spec's `error`. A loop whose end depends on the input carries fuel, as
much as it has bits to read (or lengths to produce), so running out of fuel is running out of input. -/

namespace Sys2Proof.Machine

/-- The unread bits of a deflate stream, next bit first (R193). -/
abbrev Reader := List Bool

/-- The bits of a byte sequence: bit `8m + j` of the stream is bit `j` of byte `m` (R193). -/
def streamBits (bs : List Byte) : Reader := bs.flatMap fun b => (List.range 8).map b.getLsbD

/-- `Bits(n)`: the first bit read is bit 0 of the result (R193). -/
def readBits : Nat → Reader → Option (Nat × Reader)
  | 0, r => some (0, r)
  | _ + 1, [] => none
  | n + 1, b :: r =>
    match readBits n r with
    | none => none
    | some (v, r') => some (b.toNat + 2 * v, r')

/-- `Align()` (R193): a stream is whole bytes, so the bits left over a multiple of 8 are the rest of a byte. -/
def align (r : Reader) : Reader := r.drop (r.length % 8)

/-- `n` whole bytes (R195). -/
def readBytes : Nat → Reader → Option (List Byte × Reader)
  | 0, r => some ([], r)
  | n + 1, r =>
    match readBits 8 r with
    | none => none
    | some (v, r') =>
      match readBytes n r' with
      | none => none
      | some (bs, r'') => some (BitVec.ofNat 8 v :: bs, r'')

/-- `count[L]` of R196. -/
def lengthCount (lens : List Nat) (l : Nat) : Nat := if l = 0 then 0 else lens.count l

/-- `next[L]` of R196 before any symbol has its code. -/
def firstCode (lens : List Nat) : Nat → Nat
  | 0 => 0
  | l + 1 => (firstCode lens l + lengthCount lens l) * 2

/-- The codes of the symbols in increasing symbol number (R196), each with its length. An unused symbol has length 0,
which no code that is read has. -/
def assignCodes (next : List Nat) : List Nat → List (Nat × Nat)
  | [] => []
  | l :: ls =>
    if l = 0 then (0, 0) :: assignCodes next ls
    else (l, next.getD l 0) :: assignCodes (next.set l (next.getD l 0 + 1)) ls

/-- The canonical code of a list of code lengths (R196). -/
def canonicalCodes (lens : List Nat) : List (Nat × Nat) :=
  assignCodes ((List.range 16).map (firstCode lens)) lens

/-- Read code bits, most significant first, until `(length, code)` is a symbol's; `fuel` is how many bits may still be
read (R193, R196). -/
def readCode (codes : List (Nat × Nat)) : (fuel len code : Nat) → Reader → Option (Nat × Reader)
  | 0, _, _, _ => none
  | _ + 1, _, _, [] => none
  | fuel + 1, len, code, b :: r =>
    match codes.idxOf? (len + 1, 2 * code + b.toNat) with
    | some sym => some (sym, r)
    | none => readCode codes fuel (len + 1) (2 * code + b.toNat) r

/-- Read one symbol: at most 15 bits (R196). -/
def readSymbol (codes : List (Nat × Nat)) (r : Reader) : Option (Nat × Reader) := readCode codes 15 0 0 r

/-- Base of length symbol `257 + i` (R199). -/
def lengthBase : List Nat :=
  [3, 4, 5, 6, 7, 8, 9, 10, 11, 13, 15, 17, 19, 23, 27, 31, 35, 43, 51, 59, 67, 83, 99, 115, 131, 163, 195, 227, 258]

/-- Extra bits of length symbol `257 + i` (R199). -/
def lengthExtra : List Nat :=
  [0, 0, 0, 0, 0, 0, 0, 0, 1, 1, 1, 1, 2, 2, 2, 2, 3, 3, 3, 3, 4, 4, 4, 4, 5, 5, 5, 5, 0]

/-- Base of distance symbol `d` (R199). -/
def distBase : List Nat :=
  [1, 2, 3, 4, 5, 7, 9, 13, 17, 25, 33, 49, 65, 97, 129, 193, 257, 385, 513, 769, 1025, 1537, 2049, 3073, 4097, 6145,
    8193, 12289, 16385, 24577]

/-- Extra bits of distance symbol `d` (R199). -/
def distExtra : List Nat :=
  [0, 0, 0, 0, 1, 1, 2, 2, 3, 3, 4, 4, 5, 5, 6, 6, 7, 7, 8, 8, 9, 9, 10, 10, 11, 11, 12, 12, 13, 13]

/-- The literal/length code lengths of a fixed block (R197). -/
def fixedLitLens : List Nat :=
  List.replicate 144 8 ++ List.replicate 112 9 ++ List.replicate 24 7 ++ List.replicate 8 8

/-- The distance code lengths of a fixed block (R197). -/
def fixedDistLens : List Nat := List.replicate 32 5

/-- The symbol order of the code-length alphabet (R198). -/
def codeLengthOrder : List Nat := [16, 17, 18, 0, 8, 7, 9, 6, 10, 5, 11, 4, 12, 3, 13, 2, 14, 1, 15]

/-- Append `length` times the byte `distance` before the end (R200). The output is kept last byte first. -/
def copyBack : (length distance : Nat) → (outRev : List Byte) → List Byte
  | 0, _, outRev => outRev
  | n + 1, d, outRev => copyBack n d (outRev.getD (d - 1) 0 :: outRev)

/-- The length and distance of a back-reference whose length symbol is `257 + i`, and the copy (R200). -/
def backReference (dist : List (Nat × Nat)) (i : Nat) (outRev : List Byte) (r : Reader) :
    Option (List Byte × Reader) :=
  match readBits (lengthExtra.getD i 0) r with
  | none => none
  | some (le, r1) =>
    match readSymbol dist r1 with
    | none => none
    | some (d, r2) =>
      if 29 < d then none
      else
        match readBits (distExtra.getD d 0) r2 with
        | none => none
        | some (de, r3) =>
          let distance := distBase.getD d 0 + de
          if outRev.length < distance then none
          else some (copyBack (lengthBase.getD i 0 + le) distance outRev, r3)

/-- The compressed data of a Huffman block (R200). Each round reads at least one bit. -/
def inflateData (lit dist : List (Nat × Nat)) :
    (fuel : Nat) → (outRev : List Byte) → Reader → Option (List Byte × Reader)
  | 0, _, _ => none
  | fuel + 1, outRev, r =>
    match readSymbol lit r with
    | none => none
    | some (sym, r1) =>
      if sym < 256 then inflateData lit dist fuel (BitVec.ofNat 8 sym :: outRev) r1
      else if sym = 256 then some (outRev, r1)
      else if 285 < sym then none
      else
        match backReference dist (sym - 257) outRev r1 with
        | none => none
        | some (outRev', r2) => inflateData lit dist fuel outRev' r2

/-- A Huffman block with these code lengths (R197, R198, R200). -/
def inflateHuffman (litLens distLens : List Nat) (outRev : List Byte) (r : Reader) : Option (List Byte × Reader) :=
  inflateData (canonicalCodes litLens) (canonicalCodes distLens) (r.length + 1) outRev r

/-- A stored block after its 3 header bits (R195). -/
def inflateStored (outRev : List Byte) (r : Reader) : Option (List Byte × Reader) :=
  match readBits 16 (align r) with
  | none => none
  | some (len, r1) =>
    match readBits 16 r1 with
    | none => none
    | some (nlen, r2) =>
      if Nat.xor len nlen ≠ 0xFFFF then none
      else
        match readBytes len r2 with
        | none => none
        | some (bs, r3) => some (bs.reverse ++ outRev, r3)

/-- `k` values `Bits(n)` (R198). -/
def readMany (n : Nat) : (k : Nat) → Reader → Option (List Nat × Reader)
  | 0, r => some ([], r)
  | k + 1, r =>
    match readBits n r with
    | none => none
    | some (v, r1) =>
      match readMany n k r1 with
      | none => none
      | some (vs, r2) => some (v :: vs, r2)

/-- The code lengths of the code-length alphabet, by symbol (R198). -/
def codeLengthLens (vals : List Nat) : List Nat :=
  (List.range 19).map fun sym =>
    match codeLengthOrder.idxOf? sym with
    | some k => vals.getD k 0
    | none => 0

/-- What one symbol of the code-length code produces (R198): `none` is the error of a repeat with nothing before it.
The lengths so far are kept last first. -/
def codeLengthRun (sym : Nat) (lensRev : List Nat) (r : Reader) : Option (List Nat × Reader) :=
  if sym ≤ 15 then some ([sym], r)
  else if sym = 16 then
    match lensRev, readBits 2 r with
    | prev :: _, some (v, r1) => some (List.replicate (3 + v) prev, r1)
    | _, _ => none
  else if sym = 17 then
    match readBits 3 r with
    | some (v, r1) => some (List.replicate (3 + v) 0, r1)
    | none => none
  else
    match readBits 7 r with
    | some (v, r1) => some (List.replicate (11 + v) 0, r1)
    | none => none

/-- Read symbols until `total` code lengths are produced, no more (R198). Each symbol produces at least one. -/
def readCodeLengths (codes : List (Nat × Nat)) (total : Nat) :
    (fuel : Nat) → (lensRev : List Nat) → Reader → Option (List Nat × Reader)
  | 0, _, _ => none
  | fuel + 1, lensRev, r =>
    if lensRev.length = total then some (lensRev.reverse, r)
    else if total < lensRev.length then none
    else
      match readSymbol codes r with
      | none => none
      | some (sym, r1) =>
        match codeLengthRun sym lensRev r1 with
        | none => none
        | some (run, r2) => readCodeLengths codes total fuel (run ++ lensRev) r2

/-- A dynamic block after its 3 header bits (R198). -/
def inflateDynamic (outRev : List Byte) (r : Reader) : Option (List Byte × Reader) :=
  match readMany 5 2 r with
  | some ([hlit, hdist], r1) =>
    match readBits 4 r1 with
    | none => none
    | some (hclen, r2) =>
      match readMany 3 (hclen + 4) r2 with
      | none => none
      | some (vals, r3) =>
        let total := (hlit + 257) + (hdist + 1)
        match readCodeLengths (canonicalCodes (codeLengthLens vals)) total (total + 1) [] r3 with
        | none => none
        | some (lens, r4) => inflateHuffman (lens.take (hlit + 257)) (lens.drop (hlit + 257)) outRev r4
  | _ => none

/-- One block after BFINAL, by its BTYPE (R194). -/
def inflateBlock (btype : Nat) (outRev : List Byte) (r : Reader) : Option (List Byte × Reader) :=
  if btype = 0 then inflateStored outRev r
  else if btype = 1 then inflateHuffman fixedLitLens fixedDistLens outRev r
  else if btype = 2 then inflateDynamic outRev r
  else none

/-- Blocks up to the one with BFINAL = 1, then `Align()` (R194). Each block reads at least its 3 header bits. -/
def inflateBlocks : (fuel : Nat) → (outRev : List Byte) → Reader → Option (List Byte × Reader)
  | 0, _, _ => none
  | fuel + 1, outRev, r =>
    match readBits 1 r with
    | none => none
    | some (bfinal, r1) =>
      match readBits 2 r1 with
      | none => none
      | some (btype, r2) =>
        match inflateBlock btype outRev r2 with
        | none => none
        | some (outRev', r3) =>
          if bfinal = 1 then some (outRev', align r3) else inflateBlocks fuel outRev' r3

/-- `Inflate(bs)` (R201): the output and the number of bytes consumed. -/
def inflate (bs : List Byte) : Option (List Byte × Nat) :=
  match inflateBlocks ((streamBits bs).length + 1) [] (streamBits bs) with
  | none => none
  | some (outRev, r) => some (outRev.reverse, bs.length - r.length / 8)

/-- The requirements on the 2-byte zlib header (R191). -/
def zlibHeaderOk (cmf flg : Byte) : Bool :=
  cmf.extractLsb' 0 4 == 8 && decide ((cmf.extractLsb' 4 4).toNat ≤ 7) && !flg.getLsbD 5 &&
    (cmf.toNat * 256 + flg.toNat) % 31 == 0

/-- `ZlibDecode(z)` (R202). -/
def zlibDecode : List Byte → Option (List Byte)
  | cmf :: flg :: rest =>
    if zlibHeaderOk cmf flg then
      match inflate rest with
      | none => none
      | some (out, used) =>
        if rest.length = used + 4 ∧ rest.drop used = be32 (adler32 out) then some out else none
    else none
  | _ => none

/-- One stored block of StoredDeflate (R203): the low 3 bits of its first byte are BFINAL and BTYPE 0. -/
def storedBlock (fin : Bool) (q : List Byte) : List Byte :=
  BitVec.ofNat 8 fin.toNat ::
    BitVec.ofNat 8 (q.length % 256) :: BitVec.ofNat 8 (q.length / 256) ::
    BitVec.ofNat 8 ((65535 - q.length) % 256) :: BitVec.ofNat 8 ((65535 - q.length) / 256) :: q

/-- `k` full pieces of 65535 bytes, then the last piece (R203). -/
def storedBlocks : (k : Nat) → List Byte → List Byte
  | 0, b => storedBlock true b
  | k + 1, b => storedBlock false (b.take 65535) ++ storedBlocks k (b.drop 65535)

/-- `StoredDeflate(b)` (R203). The number of pieces is `max(1, ceil_div(n, 65535))`. -/
def storedDeflate (b : List Byte) : List Byte :=
  [0x78, 0x01] ++ storedBlocks ((b.length - 1) / 65535) b ++ be32 (adler32 b)

/-- `COMPRESS(b)` (R190). An uninterpreted compressor is the free value wherever that meets the contract
`ZlibDecode(COMPRESS(b)) = b`, and StoredDeflate elsewhere: every function that meets the contract, and no other, is
some value of it (log entry 4). -/
def compress (c : Compressor) (b : List Byte) : List Byte :=
  match c with
  | .stored => storedDeflate b
  | .uninterpreted =>
    if zlibDecode (Config.rawCompress b) = some b then Config.rawCompress b else storedDeflate b

end Sys2Proof.Machine
end

