-- ==== Sys2Proof/Machine/Encoder.lean ====
section
/-! DEFINITION. The MinimalRasterEncoder and its command ENCODE (spec/44_raster_encoder.md). -/

namespace Sys2Proof.Machine

/-- The height of a grid (R24). -/
def Grid.h (g : Grid) : Nat := g.rows.length

/-- `cell(y, x)` (R24); called for `y < h` and `x < w` only. -/
def Grid.cell (g : Grid) (y x : Nat) : Bool := (g.rows.getD y []).getD x false

/-- SIGNATURE (R156). -/
def signature : List Byte := [0x89, 0x50, 0x4E, 0x47, 0x0D, 0x0A, 0x1A, 0x0A]

/-- `ascii("IHDR")` (R158). -/
def tagIHDR : List Byte := [0x49, 0x48, 0x44, 0x52]

/-- `ascii("IDAT")` (R158). -/
def tagIDAT : List Byte := [0x49, 0x44, 0x41, 0x54]

/-- `ascii("IEND")` (R158). -/
def tagIEND : List Byte := [0x49, 0x45, 0x4E, 0x44]

/-- `Chunk(tag, payload)` (R157): the length counts the payload only, the CRC covers tag and payload. -/
def chunk (tag payload : List Byte) : List Byte :=
  be32 payload.length ++ tag ++ payload ++ be32 (crc32 (tag ++ payload)).toNat

/-- `Header(w, h)` (R161). -/
def header (w h : Nat) : List Byte := be32 w ++ be32 h ++ [0x01, 0x00, 0x00, 0x00, 0x00]

/-- The sum of `b2n(bits[b]) * 2^(n - 1 - b)` over `b < n`, with zeros where `bits` has ended (R162 for `n = 8`). -/
def packMsb : Nat → List Bool → Nat
  | 0, _ => 0
  | _ + 1, [] => 0
  | n + 1, b :: bs => b.toNat * 2 ^ n + packMsb n bs

/-- Row byte `p_k` (R162): pixels `8k` to `8k + 7`, most significant bit first. -/
def pixelByte (row : List Bool) (k : Nat) : Byte := BitVec.ofNat 8 (packMsb 8 ((row.drop (8 * k)).take 8))

/-- A row of `w` pixels as bytes: filter byte 0, then the pixel bytes (R162). -/
def rowBytesOf (w : Nat) (row : List Bool) : List Byte :=
  0x00 :: (List.range (ceilDiv w 8)).map (pixelByte row)

/-- `RowBytes(g, y)` (R162). -/
def rowBytes (g : Grid) (y : Nat) : List Byte := rowBytesOf g.w (g.rows.getD y [])

/-- `Raw(g)` (R163): rows from the top, no separators. -/
def raw (g : Grid) : List Byte := g.rows.flatMap (rowBytesOf g.w)

/-- `Encode(g)` (R155), exactly three chunks. -/
def encodeGrid (c : Compressor) (g : Grid) : List Byte :=
  signature ++ chunk tagIHDR (header g.w g.h) ++ chunk tagIDAT (compress c (raw g)) ++ chunk tagIEND []

/-- MAXDIM (R5), and the largest chunk payload (R166). -/
def maxDim : Nat := 2 ^ 31 - 1

/-- `EncodeCheck(g)` passes: none of the four refusals of R166 holds. -/
def encodeCheck (c : Compressor) (g : Grid) : Bool :=
  !(g.w == 0 || g.h == 0) && g.w % 8 == 0 && !(decide (maxDim < g.w) || decide (maxDim < g.h)) &&
    !decide (maxDim < (compress c (raw g)).length)

/-- ENCODE (R167): the whole image is computed before the one write (R174). -/
def execEncode (s : State) : Host.Outcome State Fault Refusal :=
  match s.grid with
  | none => raise .notConstructed none s
  | some g =>
    if encodeCheck s.conf.compressor g then
      let bytes := encodeGrid s.conf.compressor g
      match sinkAnswer bytes s with
      | .ok => done (.count bytes.length) (writeFile (.content bytes) (sinkWritten bytes s))
      | .fail code => raise .ioFailure (some code) (writeFile .indeterminate (sinkWritten bytes s))
    else raise .unsupportedDimensions none s

end Sys2Proof.Machine
end

