-- ==== Sys2Proof/Machine/Projection.lean ====
section
/-! DEFINITION. The AxisProjectionMask commands APMNEW and APMCLR (spec/41_projection.md). -/

namespace Sys2Proof.Machine

/-- APMNEW (R110): both lengths are tested before either register is written. -/
def execApmnew (width height : Nat) (val : Bool) (s : State) : Host.Outcome State Fault Refusal :=
  if fitsMax s.conf width && fitsMax s.conf height then
    done .empty (writeBoth (newVec width val) (newVec height val) s)
  else raise .invalidArgument none s

/-- APMCLR (R111): both ranges are validated before either register is written. -/
def execApmclr (x y width height : Nat) (s : State) : Host.Outcome State Fault Refusal :=
  match s.cols, s.rows with
  | some c, some r =>
    match setRange c x (x + width) 1 false, setRange r y (y + height) 1 false with
    | some c', some r' => done .empty (writeBoth c' r' s)
    | _, _ => raise .indexOutOfRange none s
  | _, _ => raise .notConstructed none s

end Sys2Proof.Machine
end

