-- ==== Sys2Proof/Machine/Serializer.lean ====
section
/-! DEFINITION. The PackedWordSerializer and its commands BVPACK and EMITCFG (spec/43_packed_serializer.md). -/

namespace Sys2Proof.Machine

/-- The sum of `b2n(bits[j]) * 2^j` (R135): the first element is bit 0. -/
def packLsb : List Bool → Nat
  | [] => 0
  | b :: bs => b.toNat + 2 * packLsb bs

/-- Word `k` of Pack(v) (R135): elements `64k` to `64k + 63` as far as there are any, zero above them. -/
def packWord (v : BoolVec) (k : Nat) : Word := BitVec.ofNat 64 (packLsb ((v.drop (64 * k)).take 64))

/-- Pack(v) (R135), word 0 first (R54). -/
def pack (v : BoolVec) : List Word := (List.range (ceilDiv v.length 64)).map (packWord v)

/-- A packed word as 8 bytes, lowest-order byte first (R42). -/
def wordBytes (w : Word) : List Byte := (List.range 8).map fun j => w.extractLsb' (8 * j) 8

/-- The byte view of Pack(v) (R138). -/
def packBytes (v : BoolVec) : List Byte := (pack v).flatMap wordBytes

/-- BVPACK (R140). The pseudo-instructions COLW and ROWW are this command with `sel` COLS and ROWS (R141, R142). -/
def execBvpack (sel : Sel) (s : State) : Host.Outcome State Fault Refusal :=
  match readV sel s with
  | none => raise .notConstructed none s
  | some v => done (.words (pack v)) s

/-- EMITCFG (R143): the words are never flipped (R142). -/
def execEmitcfg (pol : Policy) (s : State) : Host.Outcome State Fault Refusal :=
  match s.cols, s.rows with
  | some c, some r => done (.config (pack c) (pack r) (pol == .intersection)) s
  | _, _ => raise .notConstructed none s

end Sys2Proof.Machine
end

