-- ==== Sys2Proof/Machine/Dispatch.lean ====
section
/-! DEFINITION. Which meaning each command has: one arm per constructor of Instr. -/

namespace Sys2Proof.Machine

def exec (i : Instr) (s : State) : Host.Outcome State Fault Refusal :=
  match i with
  | .bvnew sel length val => Sys2Proof.Machine.execBvnew sel length val s
  | .bvset sel start stop step val => Sys2Proof.Machine.execBvset sel start stop step val s
  | .bvget sel index => Sys2Proof.Machine.execBvget sel index s
  | .bvpack sel => Sys2Proof.Machine.execBvpack sel s
  | .apmnew width height val => Sys2Proof.Machine.execApmnew width height val s
  | .apmclr x y width height => Sys2Proof.Machine.execApmclr x y width height s
  | .emitcfg pol => Sys2Proof.Machine.execEmitcfg pol s
  | .compose pol flip => Sys2Proof.Machine.execCompose pol flip s
  | .encode => Sys2Proof.Machine.execEncode s

end Sys2Proof.Machine
end

