-- ==== Sys2Proof/Machine/Step.lean ====
section
/-! DEFINITION. One step of the block (spec/00_scope.md R11): the command at the head of the command port, to its
response. -/

namespace Sys2Proof.Machine

/-- A step. While a response stands on the port, or words of the command are missing, the block waits: nothing changes
(R60, R64, R257; log entry 2). An illegal one is consumed and
answered with IllegalCommand (R66, R227). A command is consumed and executed. -/
def step (s : State) : Host.Outcome State Fault Refusal :=
  if responseStands s then .next s
  else
    match fetch s with
    | .incomplete => .next s
    | .illegal _ rest => raise .illegalCommand none (consumed rest s)
    | .command i rest => exec i (consumed rest s)

/-- `s` with the one command whose bits are `w` at the head of the command port, before what the host has sent
already, and no response standing on the port: the next step runs exactly it. -/
def State.withFetchWord (s : State) (nbits w : Nat) : State :=
  { s with cmdIn := commandWords nbits w ++ s.cmdIn, taking := s.taking.taken }

end Sys2Proof.Machine
end

