-- ==== Sys2Proof/Machine/Assembler.lean ====
section
/-! DEFINITION. The assembler text of spec/30_encoding.md R72 and the two pseudo-instructions of R73: one command a
line, operands separated by commas, `#` to the end of the line a comment. Text is a list of characters. -/

namespace Sys2Proof.Machine

/-- The line without its comment (R72). -/
def stripComment (line : List Char) : List Char := line.takeWhile (· ≠ '#')

/-- The text without the white space around it. -/
def trim (t : List Char) : List Char := ((t.dropWhile Char.isWhitespace).reverse.dropWhile Char.isWhitespace).reverse

/-- The fields of a text that a separator character divides. -/
def splitAt (sep : Char) : List Char → List (List Char)
  | [] => [[]]
  | c :: cs =>
    if c = sep then [] :: splitAt sep cs
    else
      match splitAt sep cs with
      | [] => [[c]]
      | f :: fs => (c :: f) :: fs

/-- The value of a digit in a base of at most 16. -/
def digitValue (base : Nat) (c : Char) : Option Nat :=
  let n := c.toNat
  let v := if 48 ≤ n ∧ n ≤ 57 then some (n - 48)
    else if 97 ≤ n ∧ n ≤ 102 then some (n - 87)
    else if 65 ≤ n ∧ n ≤ 70 then some (n - 55)
    else none
  match v with
  | some d => if d < base then some d else none
  | none => none

/-- The value of a string of digits, most significant first, after `acc`. -/
def digitsValue (base : Nat) : (acc : Nat) → List Char → Option Nat
  | acc, [] => some acc
  | acc, c :: cs =>
    match digitValue base c with
    | none => none
    | some d => digitsValue base (base * acc + d) cs

/-- A number, decimal or 0x hexadecimal (R72), that fits an operand word (R63). -/
def number (t : List Char) : Option Nat :=
  let v := match t with
    | '0' :: 'x' :: c :: cs => digitsValue 16 0 (c :: cs)
    | c :: cs => digitsValue 10 0 (c :: cs)
    | [] => none
  match v with
  | some n => if n < 2 ^ 64 then some n else none
  | none => none

/-- A keyword operand, looked up as it is written (R72). -/
def keyword {α : Type} (pairs : List (String × α)) (t : List Char) : Option α :=
  (pairs.find? fun p => p.1.toList == t).map (·.2)

/-- `cols|rows` (R72). -/
def selWord (t : List Char) : Option Sel := keyword [("cols", .cols), ("rows", .rows)] t

/-- `true|false` (R72). -/
def valWord (t : List Char) : Option Bool := keyword [("true", true), ("false", false)] t

/-- `intersection|union` (R72). -/
def polWord (t : List Char) : Option Policy := keyword [("intersection", .intersection), ("union", .union)] t

/-- `flip|noflip` (R72); there is no default (R126). -/
def flipWord (t : List Char) : Option Bool := keyword [("flip", true), ("noflip", false)] t

/-- The mnemonics of the nine commands and of the pseudo-instructions (R72, R73). -/
inductive Mnemonic where
  | op (o : Opcode)
  | colw
  | roww
  deriving DecidableEq, Repr

/-- A mnemonic, in lower or upper case (R72). -/
def mnemonicWord (t : List Char) : Option Mnemonic :=
  keyword [("bvnew", .op .bvnew), ("bvset", .op .bvset), ("bvget", .op .bvget), ("bvpack", .op .bvpack),
    ("apmnew", .op .apmnew), ("apmclr", .op .apmclr), ("emitcfg", .op .emitcfg), ("compose", .op .compose),
    ("encode", .op .encode), ("colw", .colw), ("roww", .roww)] (t.map Char.toLower)

/-- The command of a mnemonic and its operands, in the order of R72. -/
def commandOf (m : Mnemonic) (ops : List (List Char)) : Option Instr :=
  match m, ops with
  | .op .bvnew, [sel, n, val] => do return .bvnew (← selWord sel) (← number n) (← valWord val)
  | .op .bvset, [sel, start, stop, step, val] => do
    return .bvset (← selWord sel) (← number start) (← number stop) (← number step) (← valWord val)
  | .op .bvget, [sel, i] => do return .bvget (← selWord sel) (← number i)
  | .op .bvpack, [sel] => do return .bvpack (← selWord sel)
  | .op .apmnew, [w, h, val] => do return .apmnew (← number w) (← number h) (← valWord val)
  | .op .apmclr, [x, y, w, h] => do return .apmclr (← number x) (← number y) (← number w) (← number h)
  | .op .emitcfg, [pol] => do return .emitcfg (← polWord pol)
  | .op .compose, [pol, flip] => do return .compose (← polWord pol) (← flipWord flip)
  | .op .encode, [] => some .encode
  | .colw, [] => some (.bvpack .cols)
  | .roww, [] => some (.bvpack .rows)
  | _, _ => none

/-- The operand fields after the mnemonic: none where nothing stands, else the texts between commas. -/
def operandFields (t : List Char) : List (List Char) :=
  if (trim t).isEmpty then [] else (splitAt ',' t).map trim

/-- One line of assembler text (R72, R73): `none` where it is no command. -/
def assembleLine (line : List Char) : Option Instr :=
  let t := trim (stripComment line)
  let name := t.takeWhile fun c => !c.isWhitespace
  match mnemonicWord name with
  | none => none
  | some m => commandOf m (operandFields (t.drop name.length))

/-- The lines of a program that are not blank or comment alone. -/
def codeLines (text : List Char) : List (List Char) :=
  (splitAt '\n' text).filter fun line => !(trim (stripComment line)).isEmpty

/-- The commands of a program, one a line: `none` where a line is no command. -/
def assemble (text : List Char) : Option (List Instr) := (codeLines text).mapM assembleLine

/-- The command words of a program (R74). -/
def assembleWords (text : List Char) : Option (List Word) := (assemble text).map fun is => is.flatMap encode

end Sys2Proof.Machine
end

