-- ==== Sys2Proof/Machine/Flags.lean ====
section
/-! DEFINITION. What stands in the place of flags. The block has no status flag (spec/10_state.md R28): the outcome of
a command is its response alone, with the status codes and words of spec/30_encoding.md R69 and R70. -/

namespace Sys2Proof.Machine

/-- The code of an error kind (R70, R221). -/
def errCode : ErrKind → Byte
  | .indexOutOfRange => 1
  | .unsupportedDimensions => 2
  | .ioFailure => 3
  | .notConstructed => 4
  | .invalidArgument => 5
  | .illegalCommand => 6

/-- The status of a response (R70). -/
def statusCode : Response → Byte
  | .ok _ => 0
  | .err k _ => errCode k

/-- `b2n` of a boolean, as a word (R6, R69). -/
def boolWord (b : Bool) : Word := if b then 1 else 0

/-- The payload words of an `Ok` response (R69). -/
def okWords : Payload → List Word
  | .empty => []
  | .bool b => [boolWord b]
  | .words ws => ws
  | .config columnWords rowWords only =>
    boolWord only :: BitVec.ofNat 64 columnWords.length :: (columnWords ++ rowWords)
  | .count n => [BitVec.ofNat 64 n]

/-- The payload words of a response: an error carries the sink's code or nothing (R69). -/
def payloadWords : Response → List Word
  | .ok p => okWords p
  | .err _ info => info.toList

/-- The response header word: status in [7:0], zero in [15:8], the payload's word count in [63:16] (R69). -/
def responseHeader (status : Byte) (npay : Nat) : Word := BitVec.ofNat 48 npay ++ (0 : Byte) ++ status

/-- The words of a response on the response port (R69). From 2^48 payload words on, the spec defines no framing
(U8): a free value. -/
def responseWords (r : Response) : List Word :=
  if (payloadWords r).length < 2 ^ 48 then
    responseHeader (statusCode r) (payloadWords r).length :: payloadWords r
  else Config.oversizeFrame (statusCode r) (payloadWords r)

/-- The words the response port has carried (R60). -/
def respPort (s : State) : List Word := s.respOut.flatMap responseWords

end Sys2Proof.Machine
end

