-- ==== Sys2Proof/Machine/RasterDecode.lean ====
section
/-! DEFINITION. DecodeRaster, the reference inverse of the encoder (spec/44_raster_encoder.md R169). The block does not
contain it; the round trip of R170 is stated with it. -/

namespace Sys2Proof.Machine

/-- A chunk as it is parsed: its tag and payload, with the CRC checked (R169). -/
structure Chunk where
  tag : List Byte
  payload : List Byte
  deriving DecidableEq, Repr

/-- The first `n` bytes and the rest, if there are that many. -/
def splitBytes (n : Nat) (bs : List Byte) : Option (List Byte × List Byte) :=
  if bs.length < n then none else some (bs.take n, bs.drop n)

/-- One chunk at the head of a byte sequence (R169). -/
def parseChunk (bs : List Byte) : Option (Chunk × List Byte) :=
  match splitBytes 4 bs with
  | none => none
  | some (len, bs1) =>
    match splitBytes 4 bs1 with
    | none => none
    | some (tag, bs2) =>
      match splitBytes (beValue len) bs2 with
      | none => none
      | some (payload, bs3) =>
        match splitBytes 4 bs3 with
        | none => none
        | some (crc, rest) =>
          if beValue crc = (crc32 (tag ++ payload)).toNat then some (⟨tag, payload⟩, rest) else none

/-- Chunks up to the end of the bytes (R169). Each chunk takes at least 12 bytes, so the number of bytes is fuel
enough. -/
def parseChunks : (fuel : Nat) → List Byte → Option (List Chunk)
  | _, [] => some []
  | 0, _ :: _ => none
  | fuel + 1, b :: bs =>
    match parseChunk (b :: bs) with
    | none => none
    | some (c, rest) =>
      match parseChunks fuel rest with
      | none => none
      | some cs => some (c :: cs)

/-- The width and height a header chunk declares, if it is one (R169). -/
def parseHeader (c : Chunk) : Option (Nat × Nat) :=
  if c.tag = tagIHDR ∧ c.payload.length = 13 ∧ c.payload.drop 8 = [0x01, 0x00, 0x00, 0x00, 0x00] ∧
      1 ≤ beValue (c.payload.take 4) ∧ 1 ≤ beValue ((c.payload.drop 4).take 4) then
    some (beValue (c.payload.take 4), beValue ((c.payload.drop 4).take 4))
  else none

/-- The image data: the payloads of the image-data chunks, in order (R169). -/
def imageData (cs : List Chunk) : List Byte := (cs.filter fun c => c.tag = tagIDAT).flatMap (·.payload)

/-- The bytes one row takes in the raw buffer (R169). -/
def rowStride (w : Nat) : Nat := 1 + ceilDiv w 8

/-- Every row has filter type 0 (R169). -/
def filtersZero (w h : Nat) (bytes : List Byte) : Bool :=
  (List.range h).all fun y => bytes.getD (y * rowStride w) 1 == 0

/-- Pixel `x` of row `y`: bit `7 - (x mod 8)` of its byte (R169). -/
def rawPixel (w : Nat) (bytes : List Byte) (y x : Nat) : Bool :=
  (bytes.getD (y * rowStride w + 1 + x / 8) 0).getLsbD (7 - x % 8)

/-- The grid of a raw buffer (R169). -/
def gridOfRaw (w h : Nat) (bytes : List Byte) : Option Grid :=
  if bytes.length = h * rowStride w ∧ filtersZero w h bytes = true then
    some { w := w, rows := (List.range h).map fun y => (List.range w).map fun x => rawPixel w bytes y x }
  else none

/-- `DecodeRaster(bs)` (R169): `none` where a requirement fails. -/
def decodeRaster (bs : List Byte) : Option Grid :=
  if bs.take 8 = signature then
    match parseChunks bs.length (bs.drop 8) with
    | some (c :: cs) =>
      match parseHeader c with
      | none => none
      | some (w, h) =>
        if (c :: cs).getLast? = some ⟨tagIEND, []⟩ then
          match zlibDecode (imageData (c :: cs)) with
          | none => none
          | some bytes => gridOfRaw w h bytes
        else none
    | _ => none
  else none

end Sys2Proof.Machine
end

