-- ==== Sys2Proof/Safety.lean ====
section
/-! DEFINITION. What a good state is, in the terms the statements use: the well-formedness of spec/10_state.md R35, the
agreement of a grid's rows with its width (R24), the grids the encoder accepts (spec/44_raster_encoder.md R166), and
the host's list of rectangles (spec/41_projection.md R113). -/

namespace Sys2Proof.Machine

/-- Every row of the grid has the grid's width (R24). -/
def Grid.Wf (g : Grid) : Prop := ∀ row ∈ g.rows, row.length = g.w

/-- A length is within MAXLEN (R35). -/
def WithinMax (conf : Config) (n : Nat) : Prop := ∀ m, conf.maxLen = some m → n ≤ m

/-- A state is well-formed (R35): vectors and grid are within MAXLEN, and the grid's rows have its width. -/
structure State.Inv (s : State) : Prop where
  vectors : ∀ sel v, readV sel s = some v → WithinMax s.conf v.length
  gridSize : ∀ g, s.grid = some g → WithinMax s.conf g.h ∧ WithinMax s.conf g.w
  gridRows : ∀ g, s.grid = some g → g.Wf

/-- A grid the encoder accepts: none of the four refusals of R166 applies. -/
structure Grid.Encodable (c : Compressor) (g : Grid) : Prop where
  widthPos : 1 ≤ g.w
  heightPos : 1 ≤ g.h
  widthBytes : g.w % 8 = 0
  widthMax : g.w ≤ 2 ^ 31 - 1
  heightMax : g.h ≤ 2 ^ 31 - 1
  dataMax : (compress c (raw g)).length ≤ 2 ^ 31 - 1

/-- No row of the opcode table matches the header (R64, R66). -/
def NoRowMatches (h : Word) : Prop := ∀ op, h &&& Decode.maskWord op ≠ Decode.matchWord op

/-- A range of `n` elements from `x` stays inside an axis of `len` elements; an empty one always does (R111). -/
def RangeFits (len x n : Nat) : Prop := n = 0 ∨ x + n ≤ len

/-- A rectangle of the host's list (R56): "x, y, width, height". -/
structure Rect where
  x : Nat
  y : Nat
  width : Nat
  height : Nat
  deriving DecidableEq, Repr

/-- The rectangle is inside both axes (R111). -/
def Rect.Fits (q : Rect) (cols rows : Nat) : Prop := RangeFits cols q.x q.width ∧ RangeFits rows q.y q.height

/-- The host issues one APMCLR per rectangle, in list order, and goes on after an error (R113). -/
def clearAll : List Rect → State → Host.Outcome State Fault Refusal
  | [], s => .next s
  | q :: qs, s =>
    match exec (.apmclr q.x q.y q.width q.height) s with
    | .next t => clearAll qs t
    | .fault f => .fault f
    | .refused f => .refused f

end Sys2Proof.Machine
end

