-- ==== Sys2Proof/Certificates/Slice0/Obligations.lean ====
section
/-! DEFINITION. The statements about the model. Each docstring names the rules of spec/ it rests on. -/

open Sys2Proof Sys2Proof.Machine

/-! ## Encoding -/

/-- R74: each worked encoding is what the encoder writes and reads back as the command it stands for. -/
def Obligations.WorkedEncodingsAgree : Prop :=
  ∀ p ∈ ([(.bvnew .cols 8 false, [0x1001, 8]),
      (.bvnew .rows 10 true, [0x1301, 0xA]),
      (.bvset .cols 0 8 2 true, [0x3202, 0, 8, 2]),
      (.bvget .rows 5, [0x1103, 5]),
      (.bvpack .cols, [0x4]),
      (.apmnew 16 4 true, [0x2210, 0x10, 4]),
      (.apmclr 4 1 8 2, [0x4011, 4, 1, 8, 2]),
      (.emitcfg .union, [0x412]),
      (.compose .intersection false, [0x20]),
      (.compose .union true, [0xC20]),
      (.encode, [0x30])] : List (Instr × List Word)),
    encode p.1 = p.2 ∧ decode p.2 = .command p.1 []

/-- R61 to R65: decoding what the encoder writes gives the command back, whatever words follow. -/
def Obligations.DecodeEncodeRoundTrip : Prop :=
  ∀ (i : Instr) (rest : List Word), WellFormed i → decode (encode i ++ rest) = .command i rest

/-- R61 to R65: a command has one encoding, so the words the decoder consumed are the encoder's. -/
def Obligations.DecodedWordsAreTheEncoding : Prop :=
  ∀ (ws rest : List Word) (i : Instr), decode ws = .command i rest → WellFormed i ∧ encode i ++ rest = ws

/-- R64: the decoder selects a row by its match and mask words, takes `h[15:12]` operand words in every case, and
leaves an incomplete command alone; at most one row matches. -/
def Obligations.DecodeFollowsMatchAndMask : Prop :=
  (∀ (h : Word) (op op' : Opcode), h &&& Decode.maskWord op = Decode.matchWord op →
      h &&& Decode.maskWord op' = Decode.matchWord op' → op = op') ∧
    ∀ (h : Word) (ws : List Word), ∃ n, n = (h.extractLsb' 12 4).toNat ∧
      (ws.length < n → decode (h :: ws) = .incomplete) ∧
      (n ≤ ws.length → NoRowMatches h → ∃ why, decode (h :: ws) = .illegal why (ws.drop n)) ∧
      (n ≤ ws.length → ∀ op, h &&& Decode.maskWord op = Decode.matchWord op →
        decode (h :: ws) = .command (Decode.build op h (ws.take n)) (ws.drop n))

/-- R69, R70: the response words are a header with status, zero byte and payload count, then the payload; the status code
of success and of each error kind; the payload words of each command's success, and of an error. -/
def Obligations.ResponseHeaderFields : Prop :=
  (∀ r : Response, (payloadWords r).length < 2 ^ 48 →
    ∃ hd, responseWords r = hd :: payloadWords r ∧ hd.extractLsb' 0 8 = statusCode r ∧ hd.extractLsb' 8 8 = 0 ∧
      (hd.extractLsb' 16 48).toNat = (payloadWords r).length ∧
      (hd.extractLsb' 0 8 = 0 ↔ ∃ p, r = .ok p) ∧ (hd.extractLsb' 0 8).toNat ≤ 6) ∧
    (∀ (p : Payload) (info : Option Word), statusCode (.ok p) = 0 ∧ statusCode (.err .indexOutOfRange info) = 1 ∧
      statusCode (.err .unsupportedDimensions info) = 2 ∧ statusCode (.err .ioFailure info) = 3 ∧
      statusCode (.err .notConstructed info) = 4 ∧ statusCode (.err .invalidArgument info) = 5 ∧
      statusCode (.err .illegalCommand info) = 6) ∧
    (∀ (b : Bool) (ws cw rw : List Word) (n : Nat) (k : ErrKind) (code : Word),
      payloadWords (.ok .empty) = [] ∧ payloadWords (.ok (.bool b)) = [if b then 1 else 0] ∧
      payloadWords (.ok (.words ws)) = ws ∧
      payloadWords (.ok (.config cw rw b)) = [if b then 1 else 0, BitVec.ofNat 64 cw.length] ++ cw ++ rw ∧
      payloadWords (.ok (.count n)) = [BitVec.ofNat 64 n] ∧ payloadWords (.err k none) = [] ∧
      payloadWords (.err k (some code)) = [code]) ∧
    ∀ (i : Instr) (s t : State) (k : ErrKind) (info : Option Word), exec i s = .next t →
      t.respOut = s.respOut ++ [.err k info] → (info = none ↔ k ≠ .ioFailure)

/-- R69, log entry 9: below a capacity of 2^53 - 127 every response of a well-formed block has a framing. (R69 says
below 2^53; EMITCFG on two vectors of 2^53 - 1 elements needs 2 + 2^48 words, so this is the model's own bound.) -/
def Obligations.ResponsesFitTheirFraming : Prop :=
  ∀ (i : Instr) (s t : State) (m : Nat) (r : Response), s.Inv → s.conf.maxLen = some m → m ≤ 2 ^ 53 - 128 →
    exec i s = .next t → t.respOut = s.respOut ++ [r] → (payloadWords r).length < 2 ^ 48

/-- R63, R72, R73: whatever line assembles is a command the port can carry; numbers are decimal or 0x hexadecimal; each
line form of R72 and each pseudo-instruction of R73 assembles to its command; the mnemonic may stand in upper case; `#`
starts a comment; a program has one command a line, and its words are those of its commands in order. -/
def Obligations.AssembledCommandsAreWellFormed : Prop :=
  (∀ (line : List Char) (i : Instr), assembleLine line = some i → WellFormed i) ∧
    (∀ n : Nat, n < 2 ^ 64 →
      number (Nat.toDigits 10 n) = some n ∧ number ('0' :: 'x' :: Nat.toDigits 16 n) = some n) ∧
    (∀ (ta tb tc td : List Char) (a b c d : Nat) (sel : Sel) (val flip : Bool) (pol : Policy),
      number ta = some a → number tb = some b → number tc = some c → number td = some d →
      let comma := ", ".toList
      let selText := (if sel = .rows then "rows" else "cols").toList
      let valText := (if val then "true" else "false").toList
      let polText := (if pol = .union then "union" else "intersection").toList
      let flipText := (if flip then "flip" else "noflip").toList
      assembleLine ("bvnew ".toList ++ selText ++ comma ++ ta ++ comma ++ valText) = some (.bvnew sel a val) ∧
        assembleLine ("bvset ".toList ++ selText ++ comma ++ ta ++ comma ++ tb ++ comma ++ tc ++ comma ++ valText) =
          some (.bvset sel a b c val) ∧
        assembleLine ("bvget ".toList ++ selText ++ comma ++ ta) = some (.bvget sel a) ∧
        assembleLine ("bvpack ".toList ++ selText) = some (.bvpack sel) ∧
        assembleLine ("apmnew ".toList ++ ta ++ comma ++ tb ++ comma ++ valText) = some (.apmnew a b val) ∧
        assembleLine ("apmclr ".toList ++ ta ++ comma ++ tb ++ comma ++ tc ++ comma ++ td) =
          some (.apmclr a b c d) ∧
        assembleLine ("emitcfg ".toList ++ polText) = some (.emitcfg pol) ∧
        assembleLine ("compose ".toList ++ polText ++ comma ++ flipText) = some (.compose pol flip)) ∧
    (assembleLine "encode".toList = some .encode ∧ assembleLine "colw".toList = some (.bvpack .cols) ∧
      assembleLine "roww".toList = some (.bvpack .rows)) ∧
    (∀ name ∈ ["bvnew", "bvset", "bvget", "bvpack", "apmnew", "apmclr", "emitcfg", "compose", "encode", "colw", "roww"],
      ∀ rest : List Char, (rest = [] ∨ ∃ r, rest = ' ' :: r) →
        assembleLine (name.toList.map Char.toUpper ++ rest) = assembleLine (name.toList ++ rest)) ∧
    (∀ line comment : List Char, assembleLine (line ++ '#' :: comment) = assembleLine line) ∧
    assemble [] = some [] ∧
    ∀ (line text : List Char) (i : Instr) (is : List Instr), '\n' ∉ line → assembleLine line = some i →
      assemble text = some is →
      assemble (line ++ '\n' :: text) = some (i :: is) ∧
        assembleWords (line ++ '\n' :: text) = some (encode i ++ is.flatMap encode)

/-! ## The step and the machine as a whole -/

/-- R11, R64, R257: when no response stands on the port and the words on the command port decode to a well-formed command,
the step consumes exactly them and is that command's execution. -/
def Obligations.StepRunsTheDecodedCommand : Prop :=
  ∀ (s : State) (i : Instr) (rest : List Word), s.taking ≠ .untaken → WellFormed i →
    decode s.cmdIn = .command i rest → step s = exec i { s with cmdIn := rest }

/-- R227: when no response stands on the port (R257), an illegal header is consumed with its operand words, no state
changes, and the response is Err(IllegalCommand). -/
def Obligations.IllegalCommandIsConsumedAndAnswered : Prop :=
  ∀ (s : State) (h : Word) (ws : List Word), s.taking ≠ .untaken → s.cmdIn = h :: ws →
    (h.extractLsb' 12 4).toNat ≤ ws.length → NoRowMatches h →
    step s = .next (respond (.err .illegalCommand none) { s with cmdIn := ws.drop (h.extractLsb' 12 4).toNat })

/-- R64, R257: while words of the command are missing the block waits, and nothing changes. While a response stands on
the port untaken it waits too, whatever stands on the command port; the host's taking it changes nothing else, and lets
the next command start. (That waiting is a step that changes nothing is log entry 2; how taking is held is log entry
23.) -/
def Obligations.IncompleteCommandWaits : Prop :=
  (∀ s : State, (s.cmdIn = [] ∨ ∃ h ws, s.cmdIn = h :: ws ∧ ws.length < (h.extractLsb' 12 4).toNat) →
    step s = .next s) ∧
    ∀ s : State, s.taking = .untaken →
      step s = .next s ∧ hostTake s = { s with taking := .free } ∧
        ∀ (i : Instr) (rest : List Word), decode s.cmdIn = .command i rest →
          step (hostTake s) = exec i { s with cmdIn := rest, taking := .free }

/-- R51, R64: words that arrive behind a complete command do not change what the step does with it; they stay on the
port. -/
def Obligations.LaterWordsDoNotDisturb : Prop :=
  ∀ (s t : State) (ws : List Word), decode s.cmdIn ≠ .incomplete → step s = .next t →
    step (hostSend ws s) = .next (hostSend ws t)

/-- R60, R220, R256, R257: every command runs to exactly one response and consumes no further word; the response is put
on the port and stands there unless the host takes it as it comes; a step changes nothing, or it adds one response while
none stands on the port. No step stops the machine. (That waiting is a step is log entry 2, a DESIGN CHOICE; how taking
is held is log entry 23, a DESIGN CHOICE; that nothing stops the machine is log entry 14, DEDUCED.) -/
def Obligations.EveryCommandAnswersOnce : Prop :=
  (∀ (i : Instr) (s : State), ∃ t r, exec i s = .next t ∧ t.respOut = s.respOut ++ [r] ∧ t.cmdIn = s.cmdIn ∧
      t.taking = if s.taking = .prompt then .prompt else .untaken) ∧
    (∀ (r : Response) (s : State), respond r s = { s with
      respOut := s.respOut ++ [r], taking := if s.taking = .prompt then .prompt else .untaken }) ∧
    ∀ s : State, ∃ t, step s = .next t ∧
      (t = s ∨ s.taking ≠ .untaken ∧ ∃ r, t.respOut = s.respOut ++ [r])

/-- R229: after an error V[0], V[1] and GRID are as before, and FILE too but for IOFailure, after which it is
indeterminate. -/
def Obligations.ErrorLeavesStateAsBefore : Prop :=
  ∀ (s t : State) (k : ErrKind) (info : Option Word), step s = .next t →
    t.respOut = s.respOut ++ [.err k info] →
    t.cols = s.cols ∧ t.rows = s.rows ∧ t.grid = s.grid ∧
      (k ≠ .ioFailure → t.file = s.file) ∧ (k = .ioFailure → t.file = .indeterminate)

/-- R28, R31, R32, R53: no command reads an earlier outcome, a later command word, or whether the host takes responses as
they come (log entry 23). -/
def Obligations.OutcomeIgnoresHistory : Prop :=
  ∀ (i : Instr) (s : State) (ws : List Word) (rs : List Response) (k : RespTaking), ∃ t r, exec i s = .next t ∧
    t.respOut = s.respOut ++ [r] ∧
    exec i { s with cmdIn := ws, respOut := rs, taking := k } =
      .next { t with cmdIn := ws, respOut := rs ++ [r], taking := if k = .prompt then .prompt else .untaken }

/-- R20, R25: nothing in the block reads FILE: whatever it held, the outcome is the same, but that a command which leaves
FILE alone leaves it at what it held. -/
def Obligations.FileIsNeverRead : Prop :=
  ∀ (i : Instr) (s : State) (f : FileState), ∃ t t', exec i s = .next t ∧ exec i { s with file := f } = .next t' ∧
    (t' = t ∨ t.file = s.file ∧ t' = { t with file := f })

/-- R35: every step keeps the well-formedness of the state. (That a grid's rows have its width is part of it: log
entry 15.) -/
def Obligations.StepKeepsInvariant : Prop :=
  ∀ s t : State, s.Inv → step s = .next t → t.Inv

/-- R33, R35: the state after reset is well-formed, and so is every well-formed state after a reset event. -/
def Obligations.ResetIsWellFormed : Prop :=
  State.reset.Inv ∧ ∀ s : State, (applyReset s).Inv

/-- R33: after reset no vector and no grid is constructed and the file is absent, both at power-on and after a reset
event; the configuration is not changed by reset (R251). -/
def Obligations.ResetLeavesNothingConstructed : Prop :=
  (State.reset.cols = none ∧ State.reset.rows = none ∧ State.reset.grid = none ∧ State.reset.file = .absent) ∧
    ∀ s : State, (applyReset s).cols = none ∧ (applyReset s).rows = none ∧ (applyReset s).grid = none ∧
      (applyReset s).file = .absent ∧ (applyReset s).conf = s.conf

/-- R251 and the ports of R60: a step never changes the configuration and only adds to what the response port and the
byte port have carried. (These histories are the model's own fields: log entry 8.) -/
def Obligations.StepOnlyExtendsThePorts : Prop :=
  ∀ s t : State, step s = .next t → t.conf = s.conf ∧ s.respOut <+: t.respOut ∧ s.sinkOut <+: t.sinkOut

/-- R25: FILE, where it is known, is what the last sink write presented; every step keeps this, and it holds at
reset. (The history of writes is the model's own field: log entry 8.) -/
def Obligations.FileIsTheLastWrite : Prop :=
  (∀ bytes, State.reset.file = .content bytes → State.reset.sinkOut.getLast? = some bytes) ∧
    ∀ s t : State, (∀ bytes, s.file = .content bytes → s.sinkOut.getLast? = some bytes) → step s = .next t →
      ∀ bytes, t.file = .content bytes → t.sinkOut.getLast? = some bytes

/-- R225: a command that reads a register holding nothing answers NotConstructed and changes nothing else. -/
def Obligations.ReadingNothingIsNotConstructed : Prop :=
  (∀ (s : State) (sel : Sel), readV sel s = none →
      (∀ a b k val, exec (.bvset sel a b k val) s =
        .next (respond (.err .notConstructed none) s)) ∧
      (∀ i, exec (.bvget sel i) s = .next (respond (.err .notConstructed none) s)) ∧
      exec (.bvpack sel) s = .next (respond (.err .notConstructed none) s)) ∧
    (∀ s : State, s.cols = none ∨ s.rows = none →
      (∀ x y w h, exec (.apmclr x y w h) s =
        .next (respond (.err .notConstructed none) s)) ∧
      (∀ pol, exec (.emitcfg pol) s = .next (respond (.err .notConstructed none) s)) ∧
      (∀ pol flip, exec (.compose pol flip) s =
        .next (respond (.err .notConstructed none) s))) ∧
    ∀ s : State, s.grid = none →
      exec .encode s = .next (respond (.err .notConstructed none) s)

/-! ## What each command leaves unchanged -/

/-- R49: BVGET, BVPACK and EMITCFG change nothing but the response port. -/
def Obligations.ReadersFrame : Prop :=
  ∀ (i : Instr) (s t : State), ((∃ sel j, i = .bvget sel j) ∨ (∃ sel, i = .bvpack sel) ∨ ∃ pol, i = .emitcfg pol) →
    exec i s = .next t → ∃ r, t = respond r s

/-- R92, R93: BVNEW and BVSET leave the other register, GRID, FILE, every port but the response port, and the
configuration as they were. -/
def Obligations.OneVectorWritersFrame : Prop :=
  ∀ (i : Instr) (sel : Sel) (s t : State),
    ((∃ n val, i = .bvnew sel n val) ∨ ∃ a b k val, i = .bvset sel a b k val) → exec i s = .next t →
    readV sel.other t = readV sel.other s ∧ t.grid = s.grid ∧ t.file = s.file ∧ t.cmdIn = s.cmdIn ∧
      t.sinkIn = s.sinkIn ∧ t.sinkOut = s.sinkOut ∧ t.conf = s.conf

/-- R110, R111: APMNEW and APMCLR change the two vectors and the response port only. -/
def Obligations.BothVectorsWritersFrame : Prop :=
  ∀ (i : Instr) (s t : State), ((∃ w h val, i = .apmnew w h val) ∨ ∃ x y w h, i = .apmclr x y w h) →
    exec i s = .next t → ∃ r, t = respond r { s with cols := t.cols, rows := t.rows }

/-- R49: COMPOSE changes GRID and the response port only; ENCODE changes FILE, the byte port and the response port
only. -/
def Obligations.ComposeAndEncodeFrame : Prop :=
  (∀ (pol : Policy) (flip : Bool) (s t : State), exec (.compose pol flip) s = .next t →
      ∃ r, t = respond r { s with grid := t.grid }) ∧
    ∀ s t : State, exec .encode s = .next t →
      ∃ r, t = respond r { s with file := t.file, sinkIn := t.sinkIn, sinkOut := t.sinkOut }

/-- R20, R24: only COMPOSE writes GRID, only ENCODE writes FILE, and only BVNEW, BVSET, APMNEW and APMCLR write a
vector register, the first two only the one they name. -/
def Obligations.OnlyTheListedCommandsWrite : Prop :=
  ∀ (i : Instr) (s t : State), exec i s = .next t →
    (t.grid ≠ s.grid → ∃ pol flip, i = .compose pol flip) ∧ (t.file ≠ s.file → i = .encode) ∧
      ∀ sel, readV sel t ≠ readV sel s →
        (∃ n val, i = .bvnew sel n val) ∨ (∃ a b k val, i = .bvset sel a b k val) ∨
          (∃ w h val, i = .apmnew w h val) ∨ ∃ x y w h, i = .apmclr x y w h

/-- R22: the only commands that change the length of a constructed vector are BVNEW and APMNEW, and no command takes
a vector away. -/
def Obligations.LengthFixedByConstruction : Prop :=
  ∀ (i : Instr) (s t : State) (sel : Sel) (v : BoolVec), exec i s = .next t → readV sel s = some v →
    ∃ v', readV sel t = some v' ∧
      (v'.length ≠ v.length → (∃ n val, i = .bvnew sel n val) ∨ ∃ w h val, i = .apmnew w h val)

/-- R174: the sink is written at most once per command, by ENCODE only, and the bytes are the whole image of GRID. -/
def Obligations.SinkWrittenOnceByEncodeOnly : Prop :=
  ∀ (i : Instr) (s t : State), exec i s = .next t →
    t.sinkOut = s.sinkOut ∨
      i = .encode ∧ ∃ g, s.grid = some g ∧ t.sinkOut = s.sinkOut ++ [encodeGrid s.conf.compressor g]

/-! ## The BitVector commands -/

/-- R92: a construction within MAXLEN completes and the register holds a vector of that length with every element at
the fill value. -/
def Obligations.BvnewConstructsFilledVector : Prop :=
  ∀ (s : State) (sel : Sel) (n : Nat) (val : Bool), WithinMax s.conf n →
    ∃ v, exec (.bvnew sel n val) s = .next (respond (.ok .empty) (writeV sel v s)) ∧ v.length = n ∧
      ∀ i < n, v[i]? = some val

/-- R226, R229, 93_implementation_defined.md U1: a construction above MAXLEN, or a stride of 0, answers an error and
changes nothing but the response port. (Nothing is built on which error it is.) -/
def Obligations.ViolatedPreconditionChangesNothing : Prop :=
  (∀ (s : State) (sel : Sel) (n : Nat) (val : Bool), ¬ WithinMax s.conf n →
      ∃ k info, exec (.bvnew sel n val) s = .next (respond (.err k info) s)) ∧
    (∀ (s : State) (w h : Nat) (val : Bool), ¬ (WithinMax s.conf w ∧ WithinMax s.conf h) →
      ∃ k info, exec (.apmnew w h val) s = .next (respond (.err k info) s)) ∧
    ∀ (s : State) (sel : Sel) (a b : Nat) (val : Bool),
      ∃ k info, exec (.bvset sel a b 0 val) s = .next (respond (.err k info) s)

/-- R90: when the visited set is empty, its least and greatest element, its size; `stop` is never visited. -/
def Obligations.VisitedClosedForm : Prop :=
  ∀ start stop step : Nat, 1 ≤ step →
    ((∀ i, ¬ Visited start stop step i) ↔ stop ≤ start) ∧ ¬ Visited start stop step stop ∧
      (start < stop →
        Visited start stop step start ∧
          Visited start stop step (start + (stop - 1 - start) / step * step) ∧
          (∀ i, Visited start stop step i → start ≤ i ∧ i ≤ start + (stop - 1 - start) / step * step) ∧
          ((List.range stop).filter (visits start stop step)).length = ceilDiv (stop - start) step)

/-- R95 (with R91's condition for success): a BVSET with every visited index in bounds writes exactly the visited
elements and keeps the length; with one out of bounds it answers IndexOutOfRange and changes nothing else. -/
def Obligations.BvsetWritesTheVisitedElements : Prop :=
  ∀ (s : State) (sel : Sel) (a b k : Nat) (val : Bool) (v : BoolVec), readV sel s = some v → 1 ≤ k →
    ((∀ i, Visited a b k i → i < v.length) →
        ∃ v', exec (.bvset sel a b k val) s = .next (respond (.ok .empty) (writeV sel v' s)) ∧
          v'.length = v.length ∧
          ∀ i < v.length, (Visited a b k i → v'[i]? = some val) ∧ (¬ Visited a b k i → v'[i]? = v[i]?)) ∧
      ((∃ i, Visited a b k i ∧ v.length ≤ i) →
        exec (.bvset sel a b k val) s = .next (respond (.err .indexOutOfRange none) s))

/-- R97: two successful BVSET commands on one register with the same value commute; with different values the later
one wins on the indices both visit. -/
def Obligations.BvsetsCommuteOrLaterWins : Prop :=
  ∀ (s t u : State) (sel : Sel) (a b k a' b' k' : Nat) (val val' : Bool),
    exec (.bvset sel a b k val) s = .next t → t.respOut = s.respOut ++ [.ok .empty] →
    exec (.bvset sel a' b' k' val') t = .next u → u.respOut = t.respOut ++ [.ok .empty] →
    (val = val' → ∃ t', exec (.bvset sel a' b' k' val') s = .next t' ∧
        t'.respOut = s.respOut ++ [.ok .empty] ∧ exec (.bvset sel a b k val) t' = .next u) ∧
      (val ≠ val' → ∃ w, readV sel u = some w ∧
        ∀ i, Visited a b k i → Visited a' b' k' i → w[i]? = some val')

/-- R94: BVGET answers the element at the index, or IndexOutOfRange at or beyond the length, or NotConstructed; it
writes nothing. -/
def Obligations.BvgetReadsTheElement : Prop :=
  ∀ (s : State) (sel : Sel) (i : Nat),
    (∀ v b, readV sel s = some v → v[i]? = some b →
        exec (.bvget sel i) s = .next (respond (.ok (.bool b)) s)) ∧
      (∀ v, readV sel s = some v → v.length ≤ i →
        exec (.bvget sel i) s = .next (respond (.err .indexOutOfRange none) s)) ∧
      (readV sel s = none →
        exec (.bvget sel i) s = .next (respond (.err .notConstructed none) s))

/-! ## The projection commands -/

/-- R110: with both lengths within MAXLEN, APMNEW completes and both registers hold filled vectors. -/
def Obligations.ApmnewConstructsBoth : Prop :=
  ∀ (s : State) (w h : Nat) (val : Bool), WithinMax s.conf w → WithinMax s.conf h →
    ∃ cv rv, exec (.apmnew w h val) s = .next (respond (.ok .empty) (writeBoth cv rv s)) ∧
      cv.length = w ∧ rv.length = h ∧ (∀ i < w, cv[i]? = some val) ∧ ∀ i < h, rv[i]? = some val

/-- R111: APMCLR clears the two intervals when both fit, answers IndexOutOfRange and changes neither register when one
does not, and NotConstructed when a register holds nothing. -/
def Obligations.ApmclrClearsBothOrNeither : Prop :=
  (∀ (s : State) (x y w h : Nat) (cv rv : BoolVec), s.cols = some cv → s.rows = some rv →
      (RangeFits cv.length x w → RangeFits rv.length y h →
        ∃ cv' rv', exec (.apmclr x y w h) s = .next (respond (.ok .empty) (writeBoth cv' rv' s)) ∧
          cv'.length = cv.length ∧ rv'.length = rv.length ∧
          (∀ i : Nat, cv'[i]? = if x ≤ i ∧ i < x + w then (cv[i]?).map fun _ => false else cv[i]?) ∧
          ∀ i : Nat, rv'[i]? = if y ≤ i ∧ i < y + h then (rv[i]?).map fun _ => false else rv[i]?) ∧
        (¬ (RangeFits cv.length x w ∧ RangeFits rv.length y h) →
          exec (.apmclr x y w h) s = .next (respond (.err .indexOutOfRange none) s))) ∧
    ∀ (s : State) (x y w h : Nat), s.cols = none ∨ s.rows = none →
      exec (.apmclr x y w h) s = .next (respond (.err .notConstructed none) s)

/-- R112: applying an APMCLR twice leaves the projection state of applying it once, it answers the same both times, and
when it fails the projections are the original ones. -/
def Obligations.ApmclrIsIdempotent : Prop :=
  ∀ (s t u : State) (x y w h : Nat), exec (.apmclr x y w h) s = .next t → exec (.apmclr x y w h) t = .next u →
    u.cols = t.cols ∧ u.rows = t.rows ∧
      ∃ r, t.respOut = s.respOut ++ [r] ∧ u.respOut = t.respOut ++ [r] ∧
        (r ≠ .ok .empty → t.cols = s.cols ∧ t.rows = s.rows)

/-- R114, for rectangles that both succeed: exchanging the row ranges of two rectangles leaves the same state. (With a
rectangle out of bounds the exchange can change which row range is cleared, so the success is a premise.) -/
def Obligations.SuccessfulClearsExchangeAxes : Prop :=
  ∀ (s t u : State) (x1 y1 w1 h1 x2 y2 w2 h2 : Nat),
    exec (.apmclr x1 y1 w1 h1) s = .next t → t.respOut = s.respOut ++ [.ok .empty] →
    exec (.apmclr x2 y2 w2 h2) t = .next u → u.respOut = t.respOut ++ [.ok .empty] →
    ∃ t', exec (.apmclr x1 y2 w1 h2) s = .next t' ∧ exec (.apmclr x2 y1 w2 h1) t' = .next u

/-- R113: after a list of rectangle clears on uniformly filled projections, an element is false exactly when the fill
was false or it lies in the interval of a rectangle that fits; a rectangle that does not fit changes nothing. -/
def Obligations.ClearListClearsTheUnion : Prop :=
  ∀ (qs : List Rect) (s : State) (C R : Nat) (val : Bool),
    s.cols = some (List.replicate C val) → s.rows = some (List.replicate R val) →
    ∃ t cv rv, clearAll qs s = .next t ∧ t.cols = some cv ∧ t.rows = some rv ∧ cv.length = C ∧ rv.length = R ∧
      (∀ i < C, cv[i]? = some false ↔ val = false ∨ ∃ q ∈ qs, q.Fits C R ∧ q.x ≤ i ∧ i < q.x + q.width) ∧
      ∀ i < R, rv[i]? = some false ↔ val = false ∨ ∃ q ∈ qs, q.Fits C R ∧ q.y ≤ i ∧ i < q.y + q.height

/-! ## The serializer -/

/-- R135, R140: BVPACK answers ceil(len/64) words whose bit j of word k is element 64k+j, or 0 where there is none, and
writes nothing. -/
def Obligations.BvpackAnswersThePackedBits : Prop :=
  ∀ (s : State) (sel : Sel) (v : BoolVec), readV sel s = some v →
    ∃ ws : List Word, exec (.bvpack sel) s = .next (respond (.ok (.words ws)) s) ∧
      ws.length = (v.length + 63) / 64 ∧
      ∀ (k : Nat) (w : Word), ws[k]? = some w → ∀ j < 64, w.getLsbD j = v.getD (64 * k + j) false

/-- R137: every element is its bit, padding bits are 0 and stand in the last word only, packing is injective on vectors
of one length, and the length is not recoverable. -/
def Obligations.PackIsInjectiveAtALength : Prop :=
  (∀ (v : BoolVec) (i : Nat) (b : Bool), v[i]? = some b →
      ∃ w, (pack v)[i / 64]? = some w ∧ w.getLsbD (i % 64) = b) ∧
    (∀ (v : BoolVec) (k j : Nat) (w : Word), (pack v)[k]? = some w → j < 64 → v.length ≤ 64 * k + j →
      w.getLsbD j = false ∧ k + 1 = (pack v).length ∧ v.length % 64 ≠ 0 ∧ v.length % 64 ≤ j) ∧
    (∀ v v' : BoolVec, v.length = v'.length → pack v = pack v' → v = v') ∧
    ∃ v v' : BoolVec, v.length ≠ v'.length ∧ pack v = pack v'

/-- R42, R138: laid out as bytes, least significant first, bit b of byte m is element 8m+b, or 0 where there is
none. -/
def Obligations.PackedBytesAreLittleEndian : Prop :=
  ∀ v : BoolVec, (packBytes v).length = 8 * ((v.length + 63) / 64) ∧
    ∀ (m b : Nat) (byte : Byte), (packBytes v)[m]? = some byte → b < 8 → byte.getLsbD b = v.getD (8 * m + b) false

/-- R144: the packed words of a vector of one value. -/
def Obligations.PackOfAFill : Prop :=
  ∀ n : Nat, pack (List.replicate n false) = List.replicate ((n + 63) / 64) 0 ∧
    pack (List.replicate n true) =
      List.replicate (n / 64) 0xFFFFFFFFFFFFFFFF ++
        if n % 64 = 0 then [] else [BitVec.ofNat 64 (2 ^ (n % 64) - 1)]

/-- R145: after a successful BVSET, each packed word is the old one with the visited bits replaced, and a word with no
visited index is unchanged. -/
def Obligations.PackAfterBvset : Prop :=
  ∀ (s t : State) (sel : Sel) (a b k : Nat) (val : Bool) (v v' : BoolVec),
    exec (.bvset sel a b k val) s = .next t → t.respOut = s.respOut ++ [.ok .empty] →
    readV sel s = some v → readV sel t = some v' →
    (pack v').length = (pack v).length ∧
      ∀ (q : Nat) (w w' : Word), (pack v)[q]? = some w → (pack v')[q]? = some w' →
        (∀ j < 64, (Visited a b k (64 * q + j) → w'.getLsbD j = val) ∧
          (¬ Visited a b k (64 * q + j) → w'.getLsbD j = w.getLsbD j)) ∧
        ((∀ i, Visited a b k i → i / 64 ≠ q) → w' = w)

/-- R142, R143: EMITCFG answers the words BVPACK answers for each register, unflipped, and the flag is true exactly for
INTERSECTION; it writes nothing. -/
def Obligations.EmitcfgAgreesWithBvpack : Prop :=
  ∀ (s : State) (pol : Policy) (c r : BoolVec), s.cols = some c → s.rows = some r →
    ∃ (cw rw : List Word) (only : Bool),
      exec (.emitcfg pol) s = .next (respond (.ok (.config cw rw only)) s) ∧
      exec (.bvpack .cols) s = .next (respond (.ok (.words cw)) s) ∧
      exec (.bvpack .rows) s = .next (respond (.ok (.words rw)) s) ∧
      (only = true ↔ pol = .intersection)

/-! ## The compositor -/

/-- R123 (with R120 to R122, R124): COMPOSE completes on any two constructed vectors, the grid has their lengths as
width and height, and each cell is the policy's formula of its column flag and its (flipped) row flag. -/
def Obligations.ComposeGridCells : Prop :=
  ∀ (s : State) (pol : Policy) (flip : Bool) (cv rv : BoolVec), s.cols = some cv → s.rows = some rv →
    ∃ g, exec (.compose pol flip) s = .next (respond (.ok .empty) { s with grid := some g }) ∧
      g.h = rv.length ∧ g.w = cv.length ∧ g.Wf ∧
      ∀ (y x : Nat) (cf rf : Bool), cv[x]? = some cf → y < rv.length →
        rv[if flip then rv.length - 1 - y else y]? = some rf →
        g.cell y x = (if pol = .intersection then !(cf && rf) else !(cf || rf))

/-- R125: INTERSECTION of a projection is the negation of UNION of its complement; what UNION includes INTERSECTION
includes; the two agree exactly where column and row flag are equal; the source's equation is false. -/
def Obligations.PoliciesAreDeMorganDuals : Prop :=
  (∀ (cv rv : BoolVec) (flip : Bool) (y x : Nat), y < rv.length → x < cv.length →
      (compose cv rv .intersection flip).cell y x =
          !(compose (cv.map not) (rv.map not) .union flip).cell y x ∧
        ((compose cv rv .union flip).cell y x = true → (compose cv rv .intersection flip).cell y x = true) ∧
        ((compose cv rv .union flip).cell y x = (compose cv rv .intersection flip).cell y x ↔
          cv[x]? = rv[if flip then rv.length - 1 - y else y]?)) ∧
    ∃ (cv rv : BoolVec) (flip : Bool) (y x : Nat), y < rv.length ∧ x < cv.length ∧
      (compose cv rv .intersection flip).cell y x ≠ !(compose cv rv .union flip).cell y x

/-- R126: composing with the flip is composing the reversed rows without it, and is the unflipped grid with its rows in
reverse order, under both policies. -/
def Obligations.FlipReversesTheRows : Prop :=
  ∀ (c r : BoolVec) (pol : Policy), compose c r pol true = compose c r.reverse pol false ∧
    (compose c r pol true).rows = (compose c r pol false).rows.reverse

/-! ## The encoder -/

/-- R160: the table-driven CRC-32 gives the result of the 8-step loop, and the table entries R160 lists. -/
def Obligations.CrcByTableAgrees : Prop :=
  (∀ bs : List Byte, crc32ByTable bs = crc32 bs) ∧
    crcTable 0 = 0x00000000 ∧ crcTable 1 = 0x77073096 ∧ crcTable 2 = 0xEE0E612C ∧ crcTable 255 = 0x2D02EF8D

/-- R162: a row is the filter byte 0 and ceil(w/8) bytes, bit 7-b of the k-th being pixel 8k+b, or 0 where there is
none. -/
def Obligations.RowBytesHoldThePixels : Prop :=
  ∀ (g : Grid) (y : Nat), g.Wf → y < g.h →
    (rowBytes g y).length = 1 + (g.w + 7) / 8 ∧ (rowBytes g y)[0]? = some 0 ∧
      ∀ (k b : Nat) (p : Byte), (rowBytes g y)[k + 1]? = some p → b < 8 →
        p.getLsbD (7 - b) = (decide (8 * k + b < g.w) && g.cell y (8 * k + b))

/-- R163: the raw buffer is the rows from the top with no separator, h times the bytes of a row. -/
def Obligations.RawConcatenatesTheRows : Prop :=
  ∀ g : Grid, (raw g).length = g.h * (1 + (g.w + 7) / 8) ∧
    ∀ y j : Nat, y < g.h → j < 1 + (g.w + 7) / 8 →
      (raw g)[y * (1 + (g.w + 7) / 8) + j]? = (rowBytes g y)[j]?

/-- R43, R156, R157, R161, R164, R165: the first 33 bytes are the signature and the header chunk with the grid's width and
height, the same for every compressor; the chunk after them declares the length of the compressed data and the image-data
tag, holds the data, and closes with the CRC of tag and data; the last 12 bytes are the fixed end chunk, and nothing else
stands in the image. `be32` is most significant byte first. -/
def Obligations.EncodedFixedBytes : Prop :=
  (∀ n : Nat, (be32 n).map BitVec.toNat =
      [n / 2 ^ 24 % 256, n / 2 ^ 16 % 256, n / 2 ^ 8 % 256, n % 256]) ∧
    ∀ (c c' : Compressor) (g : Grid),
      (encodeGrid c g).take 33 = (encodeGrid c' g).take 33 ∧
        (encodeGrid c g).take 33 =
          [0x89, 0x50, 0x4E, 0x47, 0x0D, 0x0A, 0x1A, 0x0A] ++ [0x00, 0x00, 0x00, 0x0D, 0x49, 0x48, 0x44, 0x52] ++
            be32 g.w ++ be32 g.h ++ [0x01, 0x00, 0x00, 0x00, 0x00] ++
            be32 (crc32 ([0x49, 0x48, 0x44, 0x52] ++ be32 g.w ++ be32 g.h ++ [0x01, 0x00, 0x00, 0x00, 0x00])).toNat ∧
        ((encodeGrid c g).drop 33).take 8 = be32 (compress c (raw g)).length ++ [0x49, 0x44, 0x41, 0x54] ∧
        ((encodeGrid c g).drop 41).take (compress c (raw g)).length = compress c (raw g) ∧
        ((encodeGrid c g).drop (41 + (compress c (raw g)).length)).take 4 =
          be32 (crc32 ([0x49, 0x44, 0x41, 0x54] ++ compress c (raw g))).toNat ∧
        (encodeGrid c g).drop (45 + (compress c (raw g)).length) =
          [0x00, 0x00, 0x00, 0x00, 0x49, 0x45, 0x4E, 0x44, 0xAE, 0x42, 0x60, 0x82]

/-- R168: the length of the image is 57 plus that of the compressed data; with StoredDeflate it is 63 + 5*nb + n. -/
def Obligations.EncodedLength : Prop :=
  (∀ (c : Compressor) (g : Grid), (encodeGrid c g).length = 57 + (compress c (raw g)).length) ∧
    ∀ (g : Grid) (n nb : Nat), g.w % 8 = 0 → n = g.h * (1 + g.w / 8) → nb = max 1 ((n + 65534) / 65535) →
      (compress .stored (raw g)).length = 6 + 5 * nb + n ∧ (encodeGrid .stored g).length = 63 + 5 * nb + n

/-- R203: StoredDeflate meets the contract of R190, and its length is 6 + 5*max(1, m) + n. -/
def Obligations.StoredDeflateIsInverted : Prop :=
  ∀ b : List Byte, zlibDecode (storedDeflate b) = some b ∧
    (storedDeflate b).length = 6 + 5 * max 1 ((b.length + 65534) / 65535) + b.length

/-- R190: whatever the compressor, decoding what it produced gives its input back. (The contract is built into
`compress`: log entry 4.) -/
def Obligations.CompressMeetsItsContract : Prop :=
  ∀ (c : Compressor) (b : List Byte), zlibDecode (compress c b) = some b

/-- R191, R202: a stream ZlibDecode accepts has a legal header, a deflate stream that inflates to the output and is
consumed whole, and the output's Adler-32 big-endian at its end. -/
def Obligations.ZlibDecodeChecksItsFrame : Prop :=
  ∀ z out : List Byte, zlibDecode z = some out ↔
    ∃ (cmf flg : Byte) (d : List Byte), z = cmf :: flg :: (d ++ be32 (adler32 out)) ∧
      cmf.toNat % 16 = 8 ∧ cmf.toNat / 16 ≤ 7 ∧ flg.getLsbD 5 = false ∧ (cmf.toNat * 256 + flg.toNat) % 31 = 0 ∧
      inflate (d ++ be32 (adler32 out)) = some (out, d.length)

/-- R170: decoding the encoding of an accepted grid gives the grid back, for every compressor. -/
def Obligations.RasterRoundTrip : Prop :=
  ∀ (c : Compressor) (g : Grid), g.Wf → g.Encodable c → decodeRaster (encodeGrid c g) = some g

/-- R166, R223: ENCODE answers UnsupportedDimensions exactly for the grids that meet one of the four refusals, and then
nothing else changes and the sink is not called. -/
def Obligations.EncodeRefusesExactlyTheUnsupported : Prop :=
  ∀ (s : State) (g : Grid), s.grid = some g →
    (¬ g.Encodable s.conf.compressor →
        exec .encode s = .next (respond (.err .unsupportedDimensions none) s)) ∧
      (g.Encodable s.conf.compressor →
        ∃ t r, exec .encode s = .next t ∧ t.respOut = s.respOut ++ [r] ∧ r ≠ .err .unsupportedDimensions none)

/-- R167: an ENCODE the sink answers ok makes FILE exactly the bytes presented, which decode to the grid, and answers
their count. (That `sinkIn` is the queue of settled answers and loses its first is log entry 6, a DESIGN CHOICE; that
`sinkOut` keeps the write is log entry 8, a DESIGN CHOICE.) -/
def Obligations.EncodeOkFileDecodesToTheGrid : Prop :=
  ∀ (s : State) (g : Grid), s.grid = some g → g.Wf → g.Encodable s.conf.compressor →
    sinkAnswer (encodeGrid s.conf.compressor g) s = .ok →
    ∃ bytes, exec .encode s = .next (respond (.ok (.count bytes.length)) { s with
        file := .content bytes, sinkIn := s.sinkIn.tail, sinkOut := s.sinkOut ++ [bytes] }) ∧
      decodeRaster bytes = some g

/-- R224: an ENCODE the sink answers fail(code) leaves FILE indeterminate and passes the code through. (The premise on
`sinkAnswer` and the queue `sinkIn` of settled answers are log entry 6, a DESIGN CHOICE; that `sinkOut` keeps the write
is log entry 8, a DESIGN CHOICE.) -/
def Obligations.EncodePassesTheSinkFailureOn : Prop :=
  ∀ (s : State) (g : Grid) (code : Word), s.grid = some g → g.Encodable s.conf.compressor →
    sinkAnswer (encodeGrid s.conf.compressor g) s = .fail code →
    exec .encode s = .next (respond (.err .ioFailure (some code)) { s with
      file := .indeterminate, sinkIn := s.sinkIn.tail,
      sinkOut := s.sinkOut ++ [encodeGrid s.conf.compressor g] })
end

