-- ==== Sys2Proof/Laws/Assembler.lean ====
section
/-! SUPPORT. How the assembler reads a line that is a mnemonic and plain operand texts: texts without white space, comma
or comment sign, as every keyword and number is. -/

namespace Sys2Proof.Machine

/-- A character that stands inside an operand. -/
def plainChar (c : Char) : Prop := c ≠ ',' ∧ c ≠ '#' ∧ c.isWhitespace = false

/-- An operand text: not empty, and of plain characters. -/
def Plain (t : List Char) : Prop := t ≠ [] ∧ ∀ c ∈ t, plainChar c

theorem digitValue_plain {base : Nat} {c : Char} {d : Nat} (h : digitValue base c = some d) : plainChar c := by
  refine ⟨?_, ?_, ?_⟩
  · rintro rfl; simp [digitValue] at h
  · rintro rfl; simp [digitValue] at h
  · by_contra hw
    simp only [Bool.not_eq_false, Char.isWhitespace, Bool.or_eq_true, decide_eq_true_eq] at hw
    rcases hw with ((rfl | rfl) | rfl) | rfl <;> simp [digitValue] at h

theorem digitsValue_plain {base acc : Nat} {t : List Char} {n : Nat} (h : digitsValue base acc t = some n) :
    ∀ c ∈ t, plainChar c := by
  induction t generalizing acc with
  | nil => simp
  | cons c cs ih =>
    rw [digitsValue] at h
    split at h
    · cases h
    · rename_i d hd
      intro c' hc'
      rcases List.mem_cons.1 hc' with rfl | hc'
      · exact digitValue_plain hd
      · exact ih h c' hc'

/-- A number is read from a text of plain characters, and fits an operand word. -/
theorem number_cases {t : List Char} {n : Nat} (h : number t = some n) :
    ((∃ c cs, t = '0' :: 'x' :: c :: cs ∧ digitsValue 16 0 (c :: cs) = some n) ∨
      ∃ c cs, t = c :: cs ∧ digitsValue 10 0 (c :: cs) = some n) ∧ n < 2 ^ 64 := by
  unfold number at h
  dsimp only at h
  split at h
  · rename_i v hv
    split at h
    · cases h
      refine ⟨?_, ‹_›⟩
      split at hv
      · exact .inl ⟨_, _, rfl, hv⟩
      · exact .inr ⟨_, _, rfl, hv⟩
      · cases hv
    · cases h
  · cases h

theorem number_plain {t : List Char} {n : Nat} (h : number t = some n) : Plain t := by
  obtain ⟨⟨c, cs, rfl, hd⟩ | ⟨c, cs, rfl, hd⟩, -⟩ := number_cases h
  · refine ⟨by simp, fun c' hc' => ?_⟩
    rw [List.mem_cons, List.mem_cons] at hc'
    rcases hc' with rfl | rfl | hc'
    · exact ⟨by decide, by decide, by decide⟩
    · exact ⟨by decide, by decide, by decide⟩
    · exact digitsValue_plain hd c' hc'
  · exact ⟨by simp, digitsValue_plain hd⟩

theorem number_lt {t : List Char} {n : Nat} (h : number t = some n) : n < 2 ^ 64 := (number_cases h).2

/-- A text of one of the keywords, or of a mnemonic. -/
theorem plain_of_all {t : List Char} (h : t ≠ [] ∧ t.all (fun c => c != ',' && c != '#' && !c.isWhitespace) = true) :
    Plain t := by
  refine ⟨h.1, fun c hc => ?_⟩
  have := List.all_eq_true.1 h.2 c hc
  simp only [Bool.and_eq_true, bne_iff_ne, ne_eq, Bool.not_eq_true'] at this
  exact ⟨this.1.1, this.1.2, this.2⟩

theorem dropWhile_head {p : Char → Bool} {t : List Char} (h : ∀ c ∈ t.head?, p c = false) : t.dropWhile p = t := by
  cases t with
  | nil => rfl
  | cons c cs => simp [h c (by simp)]

/-- A text whose first and last characters are no white space is not changed by trimming. -/
theorem trim_eq {t : List Char} (h : ∀ c ∈ t.head?, c.isWhitespace = false)
    (hl : ∀ c ∈ t.getLast?, c.isWhitespace = false) : trim t = t := by
  rw [trim, dropWhile_head h, dropWhile_head (by simpa using hl), List.reverse_reverse]

theorem trim_space (t : List Char) : trim (' ' :: t) = trim t := by
  simp [trim, show Char.isWhitespace ' ' = true by decide]

theorem Plain.trim {t : List Char} (h : Plain t) : trim t = t :=
  trim_eq (fun c hc => (h.2 c (List.mem_of_mem_head? hc)).2.2)
    (fun c hc => (h.2 c (List.mem_of_mem_getLast? hc)).2.2)

theorem splitAt_of_not_mem {sep : Char} {t : List Char} (h : sep ∉ t) : splitAt sep t = [t] := by
  induction t with
  | nil => rfl
  | cons c cs ih =>
    simp only [List.mem_cons, not_or] at h
    rw [splitAt, if_neg (Ne.symm h.1), ih h.2]

theorem splitAt_append {sep : Char} {t : List Char} (h : sep ∉ t) (rest : List Char) :
    splitAt sep (t ++ sep :: rest) = t :: splitAt sep rest := by
  induction t with
  | nil => simp [splitAt]
  | cons c cs ih =>
    simp only [List.mem_cons, not_or] at h
    rw [List.cons_append, splitAt, if_neg (Ne.symm h.1), ih h.2]

theorem Plain.not_comma {t : List Char} (h : Plain t) : ',' ∉ t := fun hm => (h.2 _ hm).1 rfl

/-- Operand texts in the form R72 writes them: separated by a comma and a space. -/
def operandText : List (List Char) → List Char
  | [] => []
  | [t] => t
  | t :: ts => t ++ ',' :: ' ' :: operandText ts

theorem operandText_cons {t : List Char} {ts : List (List Char)} (h : ts ≠ []) :
    operandText (t :: ts) = t ++ ',' :: ' ' :: operandText ts := by
  cases ts with
  | nil => exact absurd rfl h
  | cons _ _ => rfl

theorem splitAt_operandText {ts : List (List Char)} (h : ts ≠ []) (hp : ∀ t ∈ ts, Plain t) :
    (splitAt ',' (' ' :: operandText ts)).map trim = ts := by
  induction ts with
  | nil => exact absurd rfl h
  | cons t ts ih =>
    have ht := hp t (by simp)
    have hc : ',' ∉ ' ' :: t := by simpa using ht.not_comma
    by_cases hn : ts = []
    · subst hn
      rw [operandText, splitAt_of_not_mem hc]
      simp [trim_space, ht.trim]
    · rw [operandText_cons hn, ← List.cons_append, splitAt_append hc, List.map_cons, trim_space, ht.trim,
        ih hn fun t' ht' => hp t' (by simp [ht'])]

theorem operandText_not_hash {ts : List (List Char)} (hp : ∀ t ∈ ts, Plain t) : '#' ∉ operandText ts := by
  induction ts with
  | nil => simp [operandText]
  | cons t ts ih =>
    have ht : '#' ∉ t := fun hm => ((hp t (by simp)).2 _ hm).2.1 rfl
    by_cases hn : ts = []
    · subst hn; exact ht
    · rw [operandText_cons hn]
      simp [ht, ih fun t' ht' => hp t' (by simp [ht'])]

theorem operandText_ne_nil {ts : List (List Char)} (h : ts ≠ []) (hp : ∀ t ∈ ts, Plain t) : operandText ts ≠ [] := by
  cases ts with
  | nil => exact absurd rfl h
  | cons t ts =>
    by_cases hn : ts = []
    · subst hn; exact (hp t (by simp)).1
    · rw [operandText_cons hn]; simp

theorem operandText_getLast {ts : List (List Char)} (hp : ∀ t ∈ ts, Plain t) :
    ∀ c ∈ (operandText ts).getLast?, c.isWhitespace = false := by
  induction ts with
  | nil => simp [operandText]
  | cons t ts ih =>
    by_cases hn : ts = []
    · subst hn
      exact fun c hc => ((hp t (by simp)).2 c (List.mem_of_mem_getLast? hc)).2.2
    · have hne := operandText_ne_nil hn fun t' ht' => hp t' (by simp [ht'])
      rw [operandText_cons hn]
      intro c hc
      refine ih (fun t' ht' => hp t' (by simp [ht'])) c ?_
      rw [List.getLast?_append] at hc
      have e : (',' :: ' ' :: operandText ts).getLast? = (operandText ts).getLast? := by
        rw [List.getLast?_cons, List.getLast?_cons]
        cases h : (operandText ts).getLast? with
        | none => exact absurd (List.getLast?_eq_none_iff.1 h) hne
        | some _ => simp
      rw [e] at hc
      cases h : (operandText ts).getLast? with
      | none => exact absurd (List.getLast?_eq_none_iff.1 h) hne
      | some d => simpa [h] using hc

theorem stripComment_eq {t : List Char} (h : '#' ∉ t) : stripComment t = t := by
  rw [stripComment, List.takeWhile_eq_self_iff]
  intro c hc
  simpa using fun e : c = '#' => h (e ▸ hc)

theorem takeWhile_name {name : List Char} (h : Plain name) (rest : List Char) :
    (name ++ ' ' :: rest).takeWhile (fun c => !c.isWhitespace) = name := by
  rw [List.takeWhile_append_of_pos fun c hc => by simp [(h.2 c hc).2.2]]
  simp [show Char.isWhitespace ' ' = true by decide]

/-- A line that is a mnemonic, a space and operand texts in the form of R72. -/
theorem assembleLine_operands {name : List Char} {ts : List (List Char)} (hn : Plain name) (h : ts ≠ [])
    (hp : ∀ t ∈ ts, Plain t) :
    assembleLine (name ++ ' ' :: operandText ts) = (mnemonicWord name).bind fun m => commandOf m ts := by
  have hne := operandText_ne_nil h hp
  have hs : stripComment (name ++ ' ' :: operandText ts) = name ++ ' ' :: operandText ts := by
    apply stripComment_eq
    have : '#' ∉ name := fun hm => (hn.2 _ hm).2.1 rfl
    simp [this, operandText_not_hash hp]
  have hl : ∀ c ∈ (name ++ ' ' :: operandText ts).getLast?, c.isWhitespace = false := by
    intro c hc
    refine operandText_getLast hp c ?_
    rw [List.getLast?_append, List.getLast?_cons] at hc
    cases h : (operandText ts).getLast? with
    | none => exact absurd (List.getLast?_eq_none_iff.1 h) hne
    | some d => simpa [h] using hc
  have ht : trim (name ++ ' ' :: operandText ts) = name ++ ' ' :: operandText ts := by
    refine trim_eq (fun c hc => ?_) hl
    rw [List.head?_append_of_ne_nil _ hn.1] at hc
    exact (hn.2 c (List.mem_of_mem_head? hc)).2.2
  have ho : operandFields (' ' :: operandText ts) = ts := by
    rw [operandFields, trim_space, trim_eq]
    · rw [if_neg (by simpa using hne), splitAt_operandText h hp]
    · intro c hc
      cases ts with
      | nil => exact absurd rfl h
      | cons t ts =>
        have hpt := hp t (by simp)
        refine (hpt.2 c (List.mem_of_mem_head? ?_)).2.2
        by_cases hn : ts = []
        · subst hn; exact hc
        · rwa [operandText_cons hn, List.head?_append_of_ne_nil _ hpt.1] at hc
    · exact operandText_getLast hp
  unfold assembleLine
  simp only [hs, ht, takeWhile_name hn, List.drop_left, ho]
  cases mnemonicWord name <;> rfl

end Sys2Proof.Machine
end

