-- ==== Sys2Proof/Laws/Bits.lean ====
section
/-! SUPPORT. Bit lists and numbers: the two packings (R135, R162) bit by bit, and big-endian fields (R9). -/

namespace Sys2Proof.Machine

/-- Bit `j` of the least-significant-first packing is element `j`. -/
theorem packLsb_testBit (l : List Bool) (j : Nat) : (packLsb l).testBit j = l.getD j false := by
  induction l generalizing j with
  | nil => simp [packLsb]
  | cons b bs ih =>
    cases j with
    | zero => cases b <;> simp [packLsb, Nat.testBit_zero, Nat.add_mod]
    | succ j =>
      rw [Nat.testBit_succ, packLsb]
      have : (b.toNat + 2 * packLsb bs) / 2 = packLsb bs := by cases b <;> simp; omega
      simp [this, ih]

theorem packLsb_lt (l : List Bool) : packLsb l < 2 ^ l.length := by
  induction l with
  | nil => simp [packLsb]
  | cons b bs ih =>
    rw [packLsb, List.length_cons, Nat.pow_succ]
    cases b <;> simp <;> omega

/-- Bit `j` of packed word `k` is element `64k + j`, or 0 where there is none. -/
theorem packWord_getLsbD (v : BoolVec) (k j : Nat) (hj : j < 64) :
    (packWord v k).getLsbD j = v.getD (64 * k + j) false := by
  simp only [packWord, BitVec.getLsbD_ofNat, packLsb_testBit, hj, decide_true, Bool.true_and,
    List.getD_eq_getElem?_getD, List.getElem?_take, List.getElem?_drop, if_pos]

@[simp] theorem pack_length (v : BoolVec) : (pack v).length = ceilDiv v.length 64 := by simp [pack]

theorem pack_getElem? (v : BoolVec) (k : Nat) :
    (pack v)[k]? = if k < ceilDiv v.length 64 then some (packWord v k) else none := by
  unfold pack
  rw [List.getElem?_map]
  split <;> rename_i h
  · simp [h]
  · rw [List.getElem?_eq_none (by simpa using h)]; rfl

theorem packMsb_lt (n : Nat) (l : List Bool) : packMsb n l < 2 ^ n := by
  induction n generalizing l with
  | zero => simp [packMsb]
  | succ n ih =>
    cases l with
    | nil => simp [packMsb]
    | cons b bs =>
      have := ih bs
      rw [packMsb, Nat.pow_succ]
      cases b <;> simp <;> omega

/-- Bit `n - 1 - b` of the most-significant-first packing is element `b`. -/
theorem packMsb_testBit (n : Nat) (l : List Bool) (b : Nat) (hb : b < n) :
    (packMsb n l).testBit (n - 1 - b) = l.getD b false := by
  induction n generalizing l b with
  | zero => omega
  | succ n ih =>
    cases l with
    | nil => simp [packMsb]
    | cons x xs =>
      have hlt := packMsb_lt n xs
      rw [packMsb]
      cases b with
      | zero =>
        simp only [Nat.add_sub_cancel, Nat.sub_zero, List.getD_cons_zero]
        cases x
        · simpa using Nat.testBit_lt_two_pow hlt
        · simpa [Nat.testBit_two_pow_add_eq] using Nat.testBit_lt_two_pow hlt
      | succ b =>
        have e : n + 1 - 1 - (b + 1) = n - 1 - b := by omega
        rw [e, List.getD_cons_succ, ← ih xs b (by omega)]
        cases x
        · simp
        · rw [Bool.toNat_true, Nat.one_mul, Nat.testBit_two_pow_add_gt (by omega)]

/-- Bit `7 - b` of pixel byte `k` is pixel `8k + b`, or 0 where there is none. -/
theorem pixelByte_getLsbD (row : List Bool) (k b : Nat) (hb : b < 8) :
    (pixelByte row k).getLsbD (7 - b) = row.getD (8 * k + b) false := by
  have h := packMsb_testBit 8 ((row.drop (8 * k)).take 8) b hb
  simp only [pixelByte, BitVec.getLsbD_ofNat, show 8 - 1 - b = 7 - b by omega] at h ⊢
  rw [h, show decide (7 - b < 8) = true by simp; omega]
  simp only [Bool.true_and, List.getD_eq_getElem?_getD, List.getElem?_take, List.getElem?_drop, hb, if_pos]

@[simp] theorem be32_length (n : Nat) : (be32 n).length = 4 := rfl

/-- A big-endian field below 2^32 reads back. -/
theorem beValue_be32 {n : Nat} (h : n < 2 ^ 32) : beValue (be32 n) = n := by
  simp only [beValue, be32, List.foldl_cons, List.foldl_nil, BitVec.toNat_ofNat]
  omega

@[simp] theorem rowBytesOf_length (w : Nat) (row : List Bool) : (rowBytesOf w row).length = ceilDiv w 8 + 1 := by
  simp [rowBytesOf]

@[simp] theorem chunk_length (tag payload : List Byte) :
    (chunk tag payload).length = 8 + tag.length + payload.length := by
  simp [chunk]; omega

@[simp] theorem header_length (w h : Nat) : (header w h).length = 13 := rfl

end Sys2Proof.Machine
end

