-- ==== Sys2Proof/Laws/Deflate.lean ====
section
/-! SUPPORT. What the bit reader and the stored-block decoder (spec/45_deflate_zlib.md R193 to R195) do on bytes that were
written whole. -/

namespace Sys2Proof.Machine

/-- Reading `n` bits takes the first `n` and assembles them least significant first. -/
theorem readBits_append (l : List Bool) (r : Reader) : readBits l.length (l ++ r) = some (packLsb l, r) := by
  induction l with
  | nil => rfl
  | cons b bs ih => simp [readBits, ih, packLsb]

@[simp] theorem streamBits_nil : streamBits [] = [] := rfl

theorem streamBits_cons (b : Byte) (bs : List Byte) :
    streamBits (b :: bs) = (List.range 8).map b.getLsbD ++ streamBits bs := by
  simp [streamBits]

theorem streamBits_append (as bs : List Byte) : streamBits (as ++ bs) = streamBits as ++ streamBits bs := by
  simp [streamBits]

@[simp] theorem streamBits_length (bs : List Byte) : (streamBits bs).length = 8 * bs.length := by
  induction bs with
  | nil => rfl
  | cons b bs ih => rw [streamBits_cons, List.length_append, ih]; simp; omega

/-- The bits of a byte, assembled least significant first, are the byte. -/
theorem packLsb_byte (b : Byte) : packLsb ((List.range 8).map b.getLsbD) = b.toNat := by
  revert b
  decide +kernel

theorem readBits8_cons (b : Byte) (bs : List Byte) :
    readBits 8 (streamBits (b :: bs)) = some (b.toNat, streamBits bs) := by
  rw [streamBits_cons, ← packLsb_byte]
  exact readBits_append ((List.range 8).map b.getLsbD) _

/-- Reading 16 bits of two bytes is the little-endian number they hold (R195). -/
theorem readBits16_cons (a b : Byte) (bs : List Byte) :
    readBits 16 (streamBits (a :: b :: bs)) = some (a.toNat + 256 * b.toNat, streamBits bs) := by
  have h : packLsb ((List.range 8).map a.getLsbD ++ (List.range 8).map b.getLsbD) = a.toNat + 256 * b.toNat := by
    have append : ∀ l m : List Bool, packLsb (l ++ m) = packLsb l + 2 ^ l.length * packLsb m := by
      intro l m
      induction l with
      | nil => simp [packLsb]
      | cons x xs ih => simp [packLsb, ih, Nat.pow_succ]; ring
    rw [append, packLsb_byte, packLsb_byte]
    simp
  rw [streamBits_cons, streamBits_cons, ← List.append_assoc, ← h]
  exact readBits_append ((List.range 8).map a.getLsbD ++ (List.range 8).map b.getLsbD) _

/-- Reading whole bytes gives the bytes. -/
theorem readBytes_stream (bs : List Byte) (rest : List Byte) :
    readBytes bs.length (streamBits (bs ++ rest)) = some (bs, streamBits rest) := by
  induction bs with
  | nil => rfl
  | cons b bs ih => simp only [List.length_cons, readBytes, List.cons_append, readBits8_cons, ih]; simp

/-- A whole-byte stream is aligned. -/
theorem align_stream (bs : List Byte) : align (streamBits bs) = streamBits bs := by simp [align]

/-- The 3 header bits of a stored block, and what is left before the alignment (R203). -/
theorem stored_header_bits (fin : Bool) (bs : List Byte) :
    ∃ pad : List Bool, pad.length = 5 ∧
      readBits 1 (streamBits (BitVec.ofNat 8 fin.toNat :: bs)) =
        some (fin.toNat, false :: false :: (pad ++ streamBits bs)) := by
  refine ⟨[false, false, false, false, false], rfl, ?_⟩
  rw [streamBits_cons]
  cases fin <;> simp [List.range_succ, readBits]

/-- What the decoder does on one block StoredDeflate wrote: it takes the block's bytes and nothing more (R195, R203). -/
theorem inflateStored_block (q rest outRev : List Byte) (hq : q.length ≤ 65535) (pad : List Bool)
    (hp : pad.length = 5) :
    inflateStored outRev (pad ++ streamBits ((storedBlock true q).tail ++ rest)) =
      some (q.reverse ++ outRev, streamBits rest) := by
  have ha : ∀ bs : List Byte, align (pad ++ streamBits bs) = streamBits bs := by
    intro bs
    have : (5 + 8 * bs.length) % 8 = 5 := by omega
    simp [align, hp, this]
  have hlen : (BitVec.ofNat 8 (q.length % 256)).toNat + 256 * (BitVec.ofNat 8 (q.length / 256)).toNat = q.length := by
    simp only [BitVec.toNat_ofNat]; omega
  have hnlen : (BitVec.ofNat 8 ((65535 - q.length) % 256)).toNat +
      256 * (BitVec.ofNat 8 ((65535 - q.length) / 256)).toNat = 65535 - q.length := by
    simp only [BitVec.toNat_ofNat]; omega
  have hx : Nat.xor q.length (65535 - q.length) = 0xFFFF := by
    have : q.length ^^^ (2 ^ 16 - 1 - q.length) = 2 ^ 16 - 1 := by
      apply Nat.eq_of_testBit_eq
      intro i
      rw [Nat.testBit_xor, Nat.testBit_two_pow_sub_one, show 2 ^ 16 - 1 - q.length = 2 ^ 16 - (q.length + 1) by omega,
        Nat.testBit_two_pow_sub_succ (by omega)]
      by_cases hi : i < 16
      · simp [hi]
      · have : q.length.testBit i = false :=
          Nat.testBit_lt_two_pow (lt_of_lt_of_le (by omega) (Nat.pow_le_pow_right (by omega) (by omega : 16 ≤ i)))
        simp [hi, this]
    simpa using this
  simp only [inflateStored, storedBlock, List.tail_cons, List.cons_append, ha, readBits16_cons, hlen, hnlen, hx]
  simp [readBytes_stream]

end Sys2Proof.Machine
end

