-- ==== Sys2Proof/Laws/Operands.lean ====
section
/-! SUPPORT. What the operand operations of Machine/Operands.lean compute: the visited set as a test, the elements of a
range set, the capacity test. -/

namespace Sys2Proof.Machine

/-- The test `visits` is membership in the visited set. -/
theorem visits_iff {start stop step i : Nat} :
    visits start stop step i = true ↔ Visited start stop step i := by
  simp only [visits, Visited, Bool.and_eq_true, decide_eq_true_eq, beq_iff_eq]
  constructor
  · rintro ⟨⟨h1, h2⟩, h3⟩
    refine ⟨(i - start) / step, ?_, h2⟩
    have := Nat.div_add_mod (i - start) step
    rw [h3, Nat.mul_comm] at this
    omega
  · rintro ⟨j, rfl, h⟩
    refine ⟨⟨Nat.le_add_right _ _, h⟩, ?_⟩
    simp

/-- A range set that does not fail keeps the length and writes exactly the visited elements. -/
theorem setRange_some {v v' : BoolVec} {start stop step : Nat} {val : Bool}
    (h : setRange v start stop step val = some v') :
    v'.length = v.length ∧
      ∀ i : Nat, v'[i]? = v[i]?.map fun b => if visits start stop step i then val else b := by
  unfold setRange at h
  split at h
  · cases h
  · cases h
    simp [List.getElem?_mapIdx]

theorem setRange_eq_none {v : BoolVec} {start stop step : Nat} {val : Bool} :
    setRange v start stop step val = none ↔ start < stop ∧ v.length ≤ lastVisited start stop step := by
  unfold setRange
  split <;> simp_all

theorem fitsMax_iff {conf : Config} {n : Nat} : fitsMax conf n = true ↔ WithinMax conf n := by
  unfold fitsMax WithinMax
  split <;> simp_all

@[simp] theorem newVec_length (n : Nat) (b : Bool) : (newVec n b).length = n := by simp [newVec]

@[simp] theorem newVec_getElem (n : Nat) (b : Bool) (i : Nat) (h : i < (newVec n b).length) : (newVec n b)[i] = b := by
  simp [newVec]

theorem newVec_getElem? (n : Nat) (b : Bool) (i : Nat) : (newVec n b)[i]? = if i < n then some b else none := by
  simp [newVec, List.getElem?_replicate]

end Sys2Proof.Machine
end

