-- ==== Sys2Proof/Laws/State.lean ====
section
/-! SUPPORT. One lemma per field per update of the state (Machine/Ops.lean), so that no proof unfolds a record
update. -/

namespace Sys2Proof.Machine

variable (s : State)

@[simp] theorem respond_cols (r : Response) : (respond r s).cols = s.cols := rfl
@[simp] theorem respond_rows (r : Response) : (respond r s).rows = s.rows := rfl
@[simp] theorem respond_grid (r : Response) : (respond r s).grid = s.grid := rfl
@[simp] theorem respond_file (r : Response) : (respond r s).file = s.file := rfl
@[simp] theorem respond_cmdIn (r : Response) : (respond r s).cmdIn = s.cmdIn := rfl
@[simp] theorem respond_respOut (r : Response) : (respond r s).respOut = s.respOut ++ [r] := rfl
@[simp] theorem respond_taking (r : Response) : (respond r s).taking = s.taking.emitted := rfl
@[simp] theorem respond_sinkIn (r : Response) : (respond r s).sinkIn = s.sinkIn := rfl
@[simp] theorem respond_sinkOut (r : Response) : (respond r s).sinkOut = s.sinkOut := rfl
@[simp] theorem respond_conf (r : Response) : (respond r s).conf = s.conf := rfl

@[simp] theorem writeBoth_cols (c r : BoolVec) : (writeBoth c r s).cols = some c := rfl
@[simp] theorem writeBoth_rows (c r : BoolVec) : (writeBoth c r s).rows = some r := rfl
@[simp] theorem writeBoth_grid (c r : BoolVec) : (writeBoth c r s).grid = s.grid := rfl
@[simp] theorem writeBoth_file (c r : BoolVec) : (writeBoth c r s).file = s.file := rfl
@[simp] theorem writeBoth_cmdIn (c r : BoolVec) : (writeBoth c r s).cmdIn = s.cmdIn := rfl
@[simp] theorem writeBoth_respOut (c r : BoolVec) : (writeBoth c r s).respOut = s.respOut := rfl
@[simp] theorem writeBoth_taking (c r : BoolVec) : (writeBoth c r s).taking = s.taking := rfl
@[simp] theorem writeBoth_sinkIn (c r : BoolVec) : (writeBoth c r s).sinkIn = s.sinkIn := rfl
@[simp] theorem writeBoth_sinkOut (c r : BoolVec) : (writeBoth c r s).sinkOut = s.sinkOut := rfl
@[simp] theorem writeBoth_conf (c r : BoolVec) : (writeBoth c r s).conf = s.conf := rfl

@[simp] theorem writeGrid_cols (g : Grid) : (writeGrid g s).cols = s.cols := rfl
@[simp] theorem writeGrid_rows (g : Grid) : (writeGrid g s).rows = s.rows := rfl
@[simp] theorem writeGrid_grid (g : Grid) : (writeGrid g s).grid = some g := rfl
@[simp] theorem writeGrid_file (g : Grid) : (writeGrid g s).file = s.file := rfl
@[simp] theorem writeGrid_cmdIn (g : Grid) : (writeGrid g s).cmdIn = s.cmdIn := rfl
@[simp] theorem writeGrid_respOut (g : Grid) : (writeGrid g s).respOut = s.respOut := rfl
@[simp] theorem writeGrid_taking (g : Grid) : (writeGrid g s).taking = s.taking := rfl
@[simp] theorem writeGrid_sinkIn (g : Grid) : (writeGrid g s).sinkIn = s.sinkIn := rfl
@[simp] theorem writeGrid_sinkOut (g : Grid) : (writeGrid g s).sinkOut = s.sinkOut := rfl
@[simp] theorem writeGrid_conf (g : Grid) : (writeGrid g s).conf = s.conf := rfl

@[simp] theorem writeFile_cols (f : FileState) : (writeFile f s).cols = s.cols := rfl
@[simp] theorem writeFile_rows (f : FileState) : (writeFile f s).rows = s.rows := rfl
@[simp] theorem writeFile_grid (f : FileState) : (writeFile f s).grid = s.grid := rfl
@[simp] theorem writeFile_file (f : FileState) : (writeFile f s).file = f := rfl
@[simp] theorem writeFile_cmdIn (f : FileState) : (writeFile f s).cmdIn = s.cmdIn := rfl
@[simp] theorem writeFile_respOut (f : FileState) : (writeFile f s).respOut = s.respOut := rfl
@[simp] theorem writeFile_taking (f : FileState) : (writeFile f s).taking = s.taking := rfl
@[simp] theorem writeFile_sinkIn (f : FileState) : (writeFile f s).sinkIn = s.sinkIn := rfl
@[simp] theorem writeFile_sinkOut (f : FileState) : (writeFile f s).sinkOut = s.sinkOut := rfl
@[simp] theorem writeFile_conf (f : FileState) : (writeFile f s).conf = s.conf := rfl

@[simp] theorem sinkWritten_cols (bytes : List Byte) : (sinkWritten bytes s).cols = s.cols := rfl
@[simp] theorem sinkWritten_rows (bytes : List Byte) : (sinkWritten bytes s).rows = s.rows := rfl
@[simp] theorem sinkWritten_grid (bytes : List Byte) : (sinkWritten bytes s).grid = s.grid := rfl
@[simp] theorem sinkWritten_file (bytes : List Byte) : (sinkWritten bytes s).file = s.file := rfl
@[simp] theorem sinkWritten_cmdIn (bytes : List Byte) : (sinkWritten bytes s).cmdIn = s.cmdIn := rfl
@[simp] theorem sinkWritten_respOut (bytes : List Byte) : (sinkWritten bytes s).respOut = s.respOut := rfl
@[simp] theorem sinkWritten_taking (bytes : List Byte) : (sinkWritten bytes s).taking = s.taking := rfl
@[simp] theorem sinkWritten_sinkIn (bytes : List Byte) : (sinkWritten bytes s).sinkIn = s.sinkIn.tail := rfl
@[simp] theorem sinkWritten_sinkOut (bytes : List Byte) : (sinkWritten bytes s).sinkOut = s.sinkOut ++ [bytes] := rfl
@[simp] theorem sinkWritten_conf (bytes : List Byte) : (sinkWritten bytes s).conf = s.conf := rfl

@[simp] theorem consumed_cols (rest : List Word) : (consumed rest s).cols = s.cols := rfl
@[simp] theorem consumed_rows (rest : List Word) : (consumed rest s).rows = s.rows := rfl
@[simp] theorem consumed_grid (rest : List Word) : (consumed rest s).grid = s.grid := rfl
@[simp] theorem consumed_file (rest : List Word) : (consumed rest s).file = s.file := rfl
@[simp] theorem consumed_cmdIn (rest : List Word) : (consumed rest s).cmdIn = rest := rfl
@[simp] theorem consumed_respOut (rest : List Word) : (consumed rest s).respOut = s.respOut := rfl
@[simp] theorem consumed_taking (rest : List Word) : (consumed rest s).taking = s.taking := rfl
@[simp] theorem consumed_sinkIn (rest : List Word) : (consumed rest s).sinkIn = s.sinkIn := rfl
@[simp] theorem consumed_sinkOut (rest : List Word) : (consumed rest s).sinkOut = s.sinkOut := rfl
@[simp] theorem consumed_conf (rest : List Word) : (consumed rest s).conf = s.conf := rfl

@[simp] theorem hostSend_cols (ws : List Word) : (hostSend ws s).cols = s.cols := rfl
@[simp] theorem hostSend_rows (ws : List Word) : (hostSend ws s).rows = s.rows := rfl
@[simp] theorem hostSend_grid (ws : List Word) : (hostSend ws s).grid = s.grid := rfl
@[simp] theorem hostSend_file (ws : List Word) : (hostSend ws s).file = s.file := rfl
@[simp] theorem hostSend_cmdIn (ws : List Word) : (hostSend ws s).cmdIn = s.cmdIn ++ ws := rfl
@[simp] theorem hostSend_respOut (ws : List Word) : (hostSend ws s).respOut = s.respOut := rfl
@[simp] theorem hostSend_taking (ws : List Word) : (hostSend ws s).taking = s.taking := rfl
@[simp] theorem hostSend_sinkIn (ws : List Word) : (hostSend ws s).sinkIn = s.sinkIn := rfl
@[simp] theorem hostSend_sinkOut (ws : List Word) : (hostSend ws s).sinkOut = s.sinkOut := rfl
@[simp] theorem hostSend_conf (ws : List Word) : (hostSend ws s).conf = s.conf := rfl

@[simp] theorem hostTake_cols : (hostTake s).cols = s.cols := rfl
@[simp] theorem hostTake_rows : (hostTake s).rows = s.rows := rfl
@[simp] theorem hostTake_grid : (hostTake s).grid = s.grid := rfl
@[simp] theorem hostTake_file : (hostTake s).file = s.file := rfl
@[simp] theorem hostTake_cmdIn : (hostTake s).cmdIn = s.cmdIn := rfl
@[simp] theorem hostTake_respOut : (hostTake s).respOut = s.respOut := rfl
@[simp] theorem hostTake_sinkIn : (hostTake s).sinkIn = s.sinkIn := rfl
@[simp] theorem hostTake_sinkOut : (hostTake s).sinkOut = s.sinkOut := rfl
@[simp] theorem hostTake_conf : (hostTake s).conf = s.conf := rfl
@[simp] theorem hostTake_taking : (hostTake s).taking = s.taking.taken := rfl

@[simp] theorem hostPrompt_cols : (hostPrompt s).cols = s.cols := rfl
@[simp] theorem hostPrompt_rows : (hostPrompt s).rows = s.rows := rfl
@[simp] theorem hostPrompt_grid : (hostPrompt s).grid = s.grid := rfl
@[simp] theorem hostPrompt_file : (hostPrompt s).file = s.file := rfl
@[simp] theorem hostPrompt_cmdIn : (hostPrompt s).cmdIn = s.cmdIn := rfl
@[simp] theorem hostPrompt_respOut : (hostPrompt s).respOut = s.respOut := rfl
@[simp] theorem hostPrompt_sinkIn : (hostPrompt s).sinkIn = s.sinkIn := rfl
@[simp] theorem hostPrompt_sinkOut : (hostPrompt s).sinkOut = s.sinkOut := rfl
@[simp] theorem hostPrompt_conf : (hostPrompt s).conf = s.conf := rfl
@[simp] theorem hostPrompt_taking : (hostPrompt s).taking = .prompt := rfl

@[simp] theorem hostHold_cols : (hostHold s).cols = s.cols := rfl
@[simp] theorem hostHold_rows : (hostHold s).rows = s.rows := rfl
@[simp] theorem hostHold_grid : (hostHold s).grid = s.grid := rfl
@[simp] theorem hostHold_file : (hostHold s).file = s.file := rfl
@[simp] theorem hostHold_cmdIn : (hostHold s).cmdIn = s.cmdIn := rfl
@[simp] theorem hostHold_respOut : (hostHold s).respOut = s.respOut := rfl
@[simp] theorem hostHold_sinkIn : (hostHold s).sinkIn = s.sinkIn := rfl
@[simp] theorem hostHold_sinkOut : (hostHold s).sinkOut = s.sinkOut := rfl
@[simp] theorem hostHold_conf : (hostHold s).conf = s.conf := rfl
@[simp] theorem hostHold_taking : (hostHold s).taking = if s.taking = .prompt then .free else s.taking := rfl

@[simp] theorem sinkPrepare_cols (a : SinkAnswer) : (sinkPrepare a s).cols = s.cols := rfl
@[simp] theorem sinkPrepare_rows (a : SinkAnswer) : (sinkPrepare a s).rows = s.rows := rfl
@[simp] theorem sinkPrepare_grid (a : SinkAnswer) : (sinkPrepare a s).grid = s.grid := rfl
@[simp] theorem sinkPrepare_file (a : SinkAnswer) : (sinkPrepare a s).file = s.file := rfl
@[simp] theorem sinkPrepare_cmdIn (a : SinkAnswer) : (sinkPrepare a s).cmdIn = s.cmdIn := rfl
@[simp] theorem sinkPrepare_respOut (a : SinkAnswer) : (sinkPrepare a s).respOut = s.respOut := rfl
@[simp] theorem sinkPrepare_taking (a : SinkAnswer) : (sinkPrepare a s).taking = s.taking := rfl
@[simp] theorem sinkPrepare_sinkIn (a : SinkAnswer) : (sinkPrepare a s).sinkIn = s.sinkIn ++ [a] := rfl
@[simp] theorem sinkPrepare_sinkOut (a : SinkAnswer) : (sinkPrepare a s).sinkOut = s.sinkOut := rfl
@[simp] theorem sinkPrepare_conf (a : SinkAnswer) : (sinkPrepare a s).conf = s.conf := rfl

@[simp] theorem applyReset_cols : (applyReset s).cols = none := rfl
@[simp] theorem applyReset_rows : (applyReset s).rows = none := rfl
@[simp] theorem applyReset_grid : (applyReset s).grid = none := rfl
@[simp] theorem applyReset_file : (applyReset s).file = .absent := rfl
@[simp] theorem applyReset_cmdIn : (applyReset s).cmdIn = [] := rfl
@[simp] theorem applyReset_respOut : (applyReset s).respOut = s.respOut := rfl
@[simp] theorem applyReset_taking : (applyReset s).taking = s.taking.taken := rfl
@[simp] theorem applyReset_sinkIn : (applyReset s).sinkIn = s.sinkIn := rfl
@[simp] theorem applyReset_sinkOut : (applyReset s).sinkOut = s.sinkOut := rfl
@[simp] theorem applyReset_conf : (applyReset s).conf = s.conf := rfl

@[simp] theorem writeV_cols_cols (v : BoolVec) : (writeV .cols v s).cols = some v := rfl
@[simp] theorem writeV_cols_rows (v : BoolVec) : (writeV .cols v s).rows = s.rows := rfl
@[simp] theorem writeV_rows_cols (v : BoolVec) : (writeV .rows v s).cols = s.cols := rfl
@[simp] theorem writeV_rows_rows (v : BoolVec) : (writeV .rows v s).rows = some v := rfl
@[simp] theorem writeV_grid (sel : Sel) (v : BoolVec) : (writeV sel v s).grid = s.grid := by cases sel <;> rfl
@[simp] theorem writeV_file (sel : Sel) (v : BoolVec) : (writeV sel v s).file = s.file := by cases sel <;> rfl
@[simp] theorem writeV_cmdIn (sel : Sel) (v : BoolVec) : (writeV sel v s).cmdIn = s.cmdIn := by cases sel <;> rfl
@[simp] theorem writeV_respOut (sel : Sel) (v : BoolVec) : (writeV sel v s).respOut = s.respOut := by cases sel <;> rfl
@[simp] theorem writeV_taking (sel : Sel) (v : BoolVec) : (writeV sel v s).taking = s.taking := by cases sel <;> rfl
@[simp] theorem writeV_sinkIn (sel : Sel) (v : BoolVec) : (writeV sel v s).sinkIn = s.sinkIn := by cases sel <;> rfl
@[simp] theorem writeV_sinkOut (sel : Sel) (v : BoolVec) : (writeV sel v s).sinkOut = s.sinkOut := by cases sel <;> rfl
@[simp] theorem writeV_conf (sel : Sel) (v : BoolVec) : (writeV sel v s).conf = s.conf := by cases sel <;> rfl

@[simp] theorem readV_cols : readV .cols s = s.cols := rfl
@[simp] theorem readV_rows : readV .rows s = s.rows := rfl
@[simp] theorem readV_respond (sel : Sel) (r : Response) : readV sel (respond r s) = readV sel s := by cases sel <;> rfl
@[simp] theorem readV_writeGrid (sel : Sel) (g : Grid) : readV sel (writeGrid g s) = readV sel s := by cases sel <;> rfl
@[simp] theorem readV_writeFile (sel : Sel) (f : FileState) : readV sel (writeFile f s) = readV sel s := by cases sel <;> rfl
@[simp] theorem readV_sinkWritten (sel : Sel) (bytes : List Byte) : readV sel (sinkWritten bytes s) = readV sel s := by cases sel <;> rfl
@[simp] theorem readV_consumed (sel : Sel) (rest : List Word) : readV sel (consumed rest s) = readV sel s := by cases sel <;> rfl
@[simp] theorem readV_hostSend (sel : Sel) (ws : List Word) : readV sel (hostSend ws s) = readV sel s := by cases sel <;> rfl
@[simp] theorem readV_hostTake (sel : Sel) : readV sel (hostTake s) = readV sel s := by cases sel <;> rfl
@[simp] theorem readV_hostPrompt (sel : Sel) : readV sel (hostPrompt s) = readV sel s := by cases sel <;> rfl
@[simp] theorem readV_hostHold (sel : Sel) : readV sel (hostHold s) = readV sel s := by cases sel <;> rfl
@[simp] theorem readV_sinkPrepare (sel : Sel) (a : SinkAnswer) : readV sel (sinkPrepare a s) = readV sel s := by cases sel <;> rfl
@[simp] theorem readV_applyReset (sel : Sel) : readV sel (applyReset s) = none := by cases sel <;> rfl
@[simp] theorem readV_writeV_self (sel : Sel) (v : BoolVec) : readV sel (writeV sel v s) = some v := by cases sel <;> rfl
@[simp] theorem readV_writeV_other (sel : Sel) (v : BoolVec) : readV sel.other (writeV sel v s) = readV sel.other s := by
  cases sel <;> rfl

end Sys2Proof.Machine
end

