-- ==== Sys2Proof/Laws/Ops.lean ====
section
/-! SUPPORT. What each shared operation of Machine/Ops.lean can do, said once. -/

namespace Sys2Proof.Machine

theorem done_eq_next {p : Payload} {s t : State} : done p s = .next t ↔ t = respond (.ok p) s := by
  simp [done, eq_comm]

theorem raise_eq_next {k : ErrKind} {info : Option Word} {s t : State} :
    raise k info s = .next t ↔ t = respond (.err k info) s := by
  simp [raise, eq_comm]

/-- Reading one register after writing another, or the same one. -/
theorem readV_writeV (sel sel' : Sel) (v : BoolVec) (s : State) :
    readV sel' (writeV sel v s) = if sel' = sel then some v else readV sel' s := by
  cases sel <;> cases sel' <;> rfl

theorem readV_writeBoth (sel : Sel) (c r : BoolVec) (s : State) :
    readV sel (writeBoth c r s) = some (match sel with | .cols => c | .rows => r) := by
  cases sel <;> rfl

theorem responseStands_iff {s : State} : responseStands s = true ↔ s.taking = .untaken := by
  simp [responseStands]

@[simp] theorem RespTaking.taken_ne_untaken (k : RespTaking) : k.taken ≠ .untaken := by cases k <;> decide

@[simp] theorem RespTaking.emitted_eq_untaken {k : RespTaking} : k.emitted = .untaken ↔ k ≠ .prompt := by
  cases k <;> decide

/-- Everything `respond` does. -/
theorem respond_eq (r : Response) (s : State) :
    respond r s = { s with
      respOut := s.respOut ++ [r], taking := if s.taking = .prompt then .prompt else .untaken } := by
  cases h : s.taking <;> simp [respond, RespTaking.emitted, h]

theorem sinkAnswer_of_settled {s : State} {a : SinkAnswer} {rest : List SinkAnswer} (h : s.sinkIn = a :: rest)
    (bytes : List Byte) : sinkAnswer bytes s = a := by
  simp [sinkAnswer, h]

theorem sinkAnswer_of_unsettled {s : State} (h : s.sinkIn = []) (bytes : List Byte) :
    sinkAnswer bytes s = Config.sinkAnswer s.sinkOut bytes := by
  simp [sinkAnswer, h]

end Sys2Proof.Machine
end

