-- ==== Sys2Proof/Laws/Exec.lean ====
section
/-! SUPPORT. What each command can do, said once: if its meaning answers `next t`, one of these cases holds. Every later
proof about a command's next state starts from its lemma here. -/

namespace Sys2Proof.Machine

variable {s t : State}

theorem execBvnew_cases {sel : Sel} {n : Nat} {val : Bool} (h : execBvnew sel n val s = .next t) :
    (fitsMax s.conf n = true ∧ t = respond (.ok .empty) (writeV sel (newVec n val) s)) ∨
      (fitsMax s.conf n = false ∧ t = respond (.err .invalidArgument none) s) := by
  unfold execBvnew at h
  split at h
  · exact .inl ⟨‹_›, done_eq_next.1 h⟩
  · rename_i hf
    exact .inr ⟨by simpa using hf, raise_eq_next.1 h⟩

theorem execBvset_cases {sel : Sel} {a b k : Nat} {val : Bool} (h : execBvset sel a b k val s = .next t) :
    (readV sel s = none ∧ t = respond (.err .notConstructed none) s) ∨
      ∃ v, readV sel s = some v ∧
        ((k = 0 ∧ t = respond (.err .invalidArgument none) s) ∨
          (1 ≤ k ∧ setRange v a b k val = none ∧ t = respond (.err .indexOutOfRange none) s) ∨
          ∃ v', 1 ≤ k ∧ setRange v a b k val = some v' ∧ t = respond (.ok .empty) (writeV sel v' s)) := by
  unfold execBvset at h
  split at h
  · exact .inl ⟨‹_›, raise_eq_next.1 h⟩
  · rename_i v hv
    refine .inr ⟨v, hv, ?_⟩
    split at h
    · exact .inl ⟨‹_›, raise_eq_next.1 h⟩
    · split at h
      · exact .inr (.inl ⟨by omega, ‹_›, raise_eq_next.1 h⟩)
      · exact .inr (.inr ⟨_, by omega, ‹_›, done_eq_next.1 h⟩)

theorem execBvget_cases {sel : Sel} {i : Nat} (h : execBvget sel i s = .next t) :
    (readV sel s = none ∧ t = respond (.err .notConstructed none) s) ∨
      ∃ v, readV sel s = some v ∧
        ((v.length ≤ i ∧ t = respond (.err .indexOutOfRange none) s) ∨
          ∃ b, v[i]? = some b ∧ t = respond (.ok (.bool b)) s) := by
  unfold execBvget at h
  split at h
  · exact .inl ⟨‹_›, raise_eq_next.1 h⟩
  · rename_i v hv
    refine .inr ⟨v, hv, ?_⟩
    split at h
    · exact .inl ⟨by simpa using ‹v[i]? = none›, raise_eq_next.1 h⟩
    · exact .inr ⟨_, ‹_›, done_eq_next.1 h⟩

theorem execBvpack_cases {sel : Sel} (h : execBvpack sel s = .next t) :
    (readV sel s = none ∧ t = respond (.err .notConstructed none) s) ∨
      ∃ v, readV sel s = some v ∧ t = respond (.ok (.words (pack v))) s := by
  unfold execBvpack at h
  split at h
  · exact .inl ⟨‹_›, raise_eq_next.1 h⟩
  · exact .inr ⟨_, ‹_›, done_eq_next.1 h⟩

theorem execApmnew_cases {w h' : Nat} {val : Bool} (h : execApmnew w h' val s = .next t) :
    (fitsMax s.conf w = true ∧ fitsMax s.conf h' = true ∧
        t = respond (.ok .empty) (writeBoth (newVec w val) (newVec h' val) s)) ∨
      ((fitsMax s.conf w = false ∨ fitsMax s.conf h' = false) ∧ t = respond (.err .invalidArgument none) s) := by
  unfold execApmnew at h
  split at h
  · rename_i hf
    simp only [Bool.and_eq_true] at hf
    exact .inl ⟨hf.1, hf.2, done_eq_next.1 h⟩
  · rename_i hf
    refine .inr ⟨?_, raise_eq_next.1 h⟩
    cases hw : fitsMax s.conf w <;> simp_all

theorem execApmclr_cases {x y w h' : Nat} (h : execApmclr x y w h' s = .next t) :
    ((s.cols = none ∨ s.rows = none) ∧ t = respond (.err .notConstructed none) s) ∨
      ∃ c r, s.cols = some c ∧ s.rows = some r ∧
        (((setRange c x (x + w) 1 false = none ∨ setRange r y (y + h') 1 false = none) ∧
            t = respond (.err .indexOutOfRange none) s) ∨
          ∃ c' r', setRange c x (x + w) 1 false = some c' ∧ setRange r y (y + h') 1 false = some r' ∧
            t = respond (.ok .empty) (writeBoth c' r' s)) := by
  unfold execApmclr at h
  cases hc : s.cols with
  | none => exact .inl ⟨.inl rfl, by simpa [hc, raise_eq_next] using h⟩
  | some c =>
    cases hr : s.rows with
    | none => exact .inl ⟨.inr rfl, by simpa [hc, hr, raise_eq_next] using h⟩
    | some r =>
      refine .inr ⟨c, r, rfl, rfl, ?_⟩
      cases hcs : setRange c x (x + w) 1 false with
      | none => exact .inl ⟨.inl rfl, by simpa [hc, hr, hcs, raise_eq_next] using h⟩
      | some c' =>
        cases hrs : setRange r y (y + h') 1 false with
        | none => exact .inl ⟨.inr rfl, by simpa [hc, hr, hcs, hrs, raise_eq_next] using h⟩
        | some r' => exact .inr ⟨c', r', rfl, rfl, by simpa [hc, hr, hcs, hrs, done_eq_next] using h⟩

theorem execEmitcfg_cases {pol : Policy} (h : execEmitcfg pol s = .next t) :
    ((s.cols = none ∨ s.rows = none) ∧ t = respond (.err .notConstructed none) s) ∨
      ∃ c r, s.cols = some c ∧ s.rows = some r ∧
        t = respond (.ok (.config (pack c) (pack r) (pol == .intersection))) s := by
  unfold execEmitcfg at h
  cases hc : s.cols with
  | none => exact .inl ⟨.inl rfl, by simpa [hc, raise_eq_next] using h⟩
  | some c =>
    cases hr : s.rows with
    | none => exact .inl ⟨.inr rfl, by simpa [hc, hr, raise_eq_next] using h⟩
    | some r => exact .inr ⟨c, r, rfl, rfl, by simpa [hc, hr, done_eq_next] using h⟩

theorem execCompose_cases {pol : Policy} {flip : Bool} (h : execCompose pol flip s = .next t) :
    ((s.cols = none ∨ s.rows = none) ∧ t = respond (.err .notConstructed none) s) ∨
      ∃ c r, s.cols = some c ∧ s.rows = some r ∧
        t = respond (.ok .empty) (writeGrid (compose c r pol flip) s) := by
  unfold execCompose at h
  cases hc : s.cols with
  | none => exact .inl ⟨.inl rfl, by simpa [hc, raise_eq_next] using h⟩
  | some c =>
    cases hr : s.rows with
    | none => exact .inl ⟨.inr rfl, by simpa [hc, hr, raise_eq_next] using h⟩
    | some r => exact .inr ⟨c, r, rfl, rfl, by simpa [hc, hr, done_eq_next] using h⟩

theorem execEncode_cases (h : execEncode s = .next t) :
    (s.grid = none ∧ t = respond (.err .notConstructed none) s) ∨
      ∃ g, s.grid = some g ∧
        ((encodeCheck s.conf.compressor g = false ∧ t = respond (.err .unsupportedDimensions none) s) ∨
          (encodeCheck s.conf.compressor g = true ∧
            sinkAnswer (encodeGrid s.conf.compressor g) s = .ok ∧
            t = respond (.ok (.count (encodeGrid s.conf.compressor g).length))
              (writeFile (.content (encodeGrid s.conf.compressor g))
                (sinkWritten (encodeGrid s.conf.compressor g) s))) ∨
          ∃ code, encodeCheck s.conf.compressor g = true ∧
            sinkAnswer (encodeGrid s.conf.compressor g) s = .fail code ∧
            t = respond (.err .ioFailure (some code))
              (writeFile .indeterminate (sinkWritten (encodeGrid s.conf.compressor g) s))) := by
  unfold execEncode at h
  split at h
  · exact .inl ⟨‹_›, raise_eq_next.1 h⟩
  · rename_i g hg
    refine .inr ⟨g, hg, ?_⟩
    split at h
    · rename_i hc
      simp only at h
      split at h
      · exact .inr (.inl ⟨hc, ‹_›, done_eq_next.1 h⟩)
      · exact .inr (.inr ⟨_, hc, ‹_›, raise_eq_next.1 h⟩)
    · rename_i hc
      exact .inl ⟨by simpa using hc, raise_eq_next.1 h⟩

/-- What a step can do: wait, answer an illegal command, or run a command. -/
theorem step_cases (h : step s = .next t) :
    ((s.taking = .untaken ∨ decode s.cmdIn = .incomplete) ∧ t = s) ∨
      (s.taking ≠ .untaken ∧ ∃ why rest, decode s.cmdIn = .illegal why rest ∧
        t = respond (.err .illegalCommand none) (consumed rest s)) ∨
      (s.taking ≠ .untaken ∧ ∃ i rest, decode s.cmdIn = .command i rest ∧ exec i (consumed rest s) = .next t) := by
  unfold step fetch at h
  split at h <;> rename_i hs <;> rw [responseStands_iff] at hs
  · exact .inl ⟨.inl hs, by simpa [eq_comm] using h⟩
  · split at h
    · exact .inl ⟨.inr ‹_›, by simpa [eq_comm] using h⟩
    · exact .inr (.inl ⟨hs, _, _, ‹_›, raise_eq_next.1 h⟩)
    · exact .inr (.inr ⟨hs, _, _, ‹_›, h⟩)

end Sys2Proof.Machine
end

