-- ==== Sys2Proof/Laws/PerInstr.lean ====
section
/-! SUPPORT. Statements about every command as syntax, one lemma per constructor. -/

namespace Sys2Proof.Laws

/-- The length of a command's encoding is `1 + nops`, and its header says so (spec/30_encoding.md R62, R75). -/
def EncodedLength.Statement (i : Instr) : Prop :=
  Decode.nopsField (headerWord i) = Decode.nops (opcodeOf i) ∧
    (encode i).length = 1 + Decode.nopsField (headerWord i)

/-- A command has as many operand words as its row says, so its header decides the statement. -/
theorem encodedLength_of_header {i : Instr} (h : Decode.nopsField (headerWord i) = Decode.nops (opcodeOf i)) :
    EncodedLength.Statement i := by
  refine ⟨h, ?_⟩
  rw [h, Nat.add_comm]
  cases i <;> rfl

theorem EncodedLength.bvnew (sel : Sel) (length : Nat) (val : Bool) :
    EncodedLength.Statement (.bvnew sel length val) := by
  apply encodedLength_of_header
  cases sel <;> cases val <;>
    simp [headerWord, opcodeOf, Decode.nopsField, Decode.nops, Decode.matchWord, Encode.selBit, Encode.valBit]

theorem EncodedLength.bvset (sel : Sel) (start stop step : Nat) (val : Bool) :
    EncodedLength.Statement (.bvset sel start stop step val) := by
  apply encodedLength_of_header
  cases sel <;> cases val <;>
    simp [headerWord, opcodeOf, Decode.nopsField, Decode.nops, Decode.matchWord, Encode.selBit, Encode.valBit]

theorem EncodedLength.bvget (sel : Sel) (index : Nat) : EncodedLength.Statement (.bvget sel index) := by
  apply encodedLength_of_header
  cases sel <;> simp [headerWord, opcodeOf, Decode.nopsField, Decode.nops, Decode.matchWord, Encode.selBit]

theorem EncodedLength.bvpack (sel : Sel) : EncodedLength.Statement (.bvpack sel) := by
  apply encodedLength_of_header
  cases sel <;> simp [headerWord, opcodeOf, Decode.nopsField, Decode.nops, Decode.matchWord, Encode.selBit]

theorem EncodedLength.apmnew (width height : Nat) (val : Bool) :
    EncodedLength.Statement (.apmnew width height val) := by
  apply encodedLength_of_header
  cases val <;> simp [headerWord, opcodeOf, Decode.nopsField, Decode.nops, Decode.matchWord, Encode.valBit]

theorem EncodedLength.apmclr (x y width height : Nat) :
    EncodedLength.Statement (.apmclr x y width height) := by
  apply encodedLength_of_header
  simp [headerWord, opcodeOf, Decode.nopsField, Decode.nops, Decode.matchWord]

theorem EncodedLength.emitcfg (pol : Policy) : EncodedLength.Statement (.emitcfg pol) := by
  apply encodedLength_of_header
  cases pol <;> simp [headerWord, opcodeOf, Decode.nopsField, Decode.nops, Decode.matchWord, Encode.polBit]

theorem EncodedLength.compose (pol : Policy) (flip : Bool) : EncodedLength.Statement (.compose pol flip) := by
  apply encodedLength_of_header
  cases pol <;> cases flip <;>
    simp [headerWord, opcodeOf, Decode.nopsField, Decode.nops, Decode.matchWord, Encode.polBit, Encode.flipBit]

theorem EncodedLength.encode : EncodedLength.Statement .encode := by
  apply encodedLength_of_header
  simp [headerWord, opcodeOf, Decode.nopsField, Decode.nops, Decode.matchWord]

end Sys2Proof.Laws
end

