-- ==== Sys2Proof/Tests/Slice0.lean ====
section
/-! SUPPORT. Tests of one step each against vectors of spec/95_test_vectors.md (cited by their ids) and spec/30_encoding.md
R74, the smoke test of WellFormed, and a state that meets the hypotheses of each statement that has some. -/

open Sys2Proof Sys2Proof.Machine

namespace Sys2Proof.Tests

/-! ## Helpers -/

/-- A vector written as the spec writes it, element 0 first, `T` for true. -/
def vec (t : String) : BoolVec := t.toList.map (· == 'T')

/-- A grid written one row per string, `1` for true. -/
def pic (w : Nat) (lines : List String) : Grid := { w := w, rows := lines.map fun l => l.toList.map (· == '1') }

/-- The reset state with two vectors and the reference compressor. -/
def withVectors (cv rv : Option BoolVec) : State :=
  { State.reset with cols := cv, rows := rv, conf := { maxLen := none, compressor := .stored } }

/-- The reset state with a grid, the reference compressor and one settled answer of the sink. -/
def withGrid (g : Grid) (a : SinkAnswer) : State :=
  { State.reset with grid := some g, sinkIn := [a], conf := { maxLen := none, compressor := .stored } }

/-- The reset state with these words on the command port. -/
def withWords (ws : List Word) : State := { State.reset with cmdIn := ws }

/-- The reset state with both vectors, and a capacity. -/
def withMax (m : Nat) : State :=
  { withVectors (some (vec "TT")) (some (vec "T")) with conf := { maxLen := some m, compressor := .stored } }

/-- The response words the outcome's state has sent. -/
def sent : Host.Outcome State Fault Refusal → List Word
  | .next t => respPort t
  | .fault _ => []
  | .refused _ => []

/-- Both vectors after the outcome. -/
def vectors : Host.Outcome State Fault Refusal → Option BoolVec × Option BoolVec
  | .next t => (t.cols, t.rows)
  | .fault _ => (none, none)
  | .refused _ => (none, none)

/-- The grid after the outcome. -/
def gridOf : Host.Outcome State Fault Refusal → Option Grid
  | .next t => t.grid
  | .fault _ => none
  | .refused _ => none

/-- The file after the outcome. -/
def fileOf : Host.Outcome State Fault Refusal → FileState
  | .next t => t.file
  | .fault _ => .absent
  | .refused _ => .absent

/-- The state after the outcome. -/
def stateOf : Host.Outcome State Fault Refusal → Option State
  | .next t => some t
  | .fault _ => none
  | .refused _ => none

/-- The columns and rows of projection A (95_test_vectors.md, compositor family). -/
def colsA : BoolVec := vec "TTTTFFFFFFFFTTTT"

def rowsA : BoolVec := vec "TFFT"

/-- The 70 bytes of V-ENC-1. -/
def fileEnc1 : List Byte :=
  [0x89, 0x50, 0x4E, 0x47, 0x0D, 0x0A, 0x1A, 0x0A,
    0x00, 0x00, 0x00, 0x0D, 0x49, 0x48, 0x44, 0x52, 0x00, 0x00, 0x00, 0x08, 0x00, 0x00, 0x00, 0x01,
    0x01, 0x00, 0x00, 0x00, 0x00, 0xCB, 0x7B, 0xD2, 0xEE,
    0x00, 0x00, 0x00, 0x0D, 0x49, 0x44, 0x41, 0x54, 0x78, 0x01, 0x01, 0x02, 0x00, 0xFD, 0xFF,
    0x00, 0xFF, 0x01, 0x01, 0x01, 0x00, 0x60, 0x87, 0x12, 0xB5,
    0x00, 0x00, 0x00, 0x00, 0x49, 0x45, 0x4E, 0x44, 0xAE, 0x42, 0x60, 0x82]

/-! ## WellFormed refuses each operand that no operand word holds (R63) -/

theorem test_wellformed_bvnew_length : ¬ WellFormed (.bvnew .cols (2 ^ 64) true) := by decide

theorem test_wellformed_bvset_start : ¬ WellFormed (.bvset .cols (2 ^ 64) 0 1 true) := by decide

theorem test_wellformed_bvset_stop : ¬ WellFormed (.bvset .cols 0 (2 ^ 64) 1 true) := by decide

theorem test_wellformed_bvset_step : ¬ WellFormed (.bvset .cols 0 0 (2 ^ 64) true) := by decide

theorem test_wellformed_bvget_index : ¬ WellFormed (.bvget .rows (2 ^ 64)) := by decide

theorem test_wellformed_apmnew_width : ¬ WellFormed (.apmnew (2 ^ 64) 0 true) := by decide

theorem test_wellformed_apmnew_height : ¬ WellFormed (.apmnew 0 (2 ^ 64) true) := by decide

theorem test_wellformed_apmclr_x : ¬ WellFormed (.apmclr (2 ^ 64) 0 0 0) := by decide

theorem test_wellformed_apmclr_y : ¬ WellFormed (.apmclr 0 (2 ^ 64) 0 0) := by decide

theorem test_wellformed_apmclr_width : ¬ WellFormed (.apmclr 0 0 (2 ^ 64) 0) := by decide

theorem test_wellformed_apmclr_height : ¬ WellFormed (.apmclr 0 0 0 (2 ^ 64)) := by decide

theorem test_wellformed_accepts_the_greatest : WellFormed (.apmclr (2 ^ 64 - 1) 0 (2 ^ 64 - 1) 0) := by decide

/-! ## Decoding (V-DEC-1 and R74; operand words follow the header) -/

theorem test_decode_bvnew : decode [0x0000000000001301, 0xA] = .command (.bvnew .rows 10 true) [] := by decide

theorem test_decode_bvset :
    decode [0x0000000000003202, 0, 8, 2, 7] = .command (.bvset .cols 0 8 2 true) [7] := by decide

theorem test_decode_bvget : decode [0x0000000000001103, 5] = .command (.bvget .rows 5) [] := by decide

theorem test_decode_bvpack : decode [0x0000000000000104] = .command (.bvpack .rows) [] := by decide

theorem test_decode_apmnew : decode [0x0000000000002210, 0x10, 4] = .command (.apmnew 16 4 true) [] := by decide

theorem test_decode_apmclr :
    decode [0x0000000000004011, 4, 1, 8, 2] = .command (.apmclr 4 1 8 2) [] := by decide

theorem test_decode_emitcfg : decode [0x0000000000000412] = .command (.emitcfg .union) [] := by decide

theorem test_decode_compose :
    decode [0x0000000000000820] = .command (.compose .intersection true) [] := by decide

theorem test_decode_encode : decode [0x0000000000000030] = .command .encode [] := by decide

theorem test_decode_unknown_opcode : decode [0x0000000000000000, 1] = .illegal .unknownOpcode [1] := by decide

theorem test_decode_wrong_count :
    decode [0x0000000000002302, 5, 15, 9] = .illegal .wrongOperandCount [9] := by decide

theorem test_decode_reserved_bit : decode [0x8000000000000020] = .illegal .reservedBitSet [] := by decide

theorem test_decode_unused_pol : decode [0x0000000000001401, 8] = .illegal .unusedFieldSet [] := by decide

theorem test_decode_unused_sel : decode [0x0000000000000130] = .illegal .unusedFieldSet [] := by decide

theorem test_decode_incomplete : decode [0x0000000000004011, 4, 1, 8] = .incomplete := by decide

theorem test_decode_table_word :
    decodeTableWord 128 0x00000000000000080000000000001201 = some (.bvnew .cols 8 true) := by decide

theorem test_reset_runs_the_fetch_word :
    vectors (step (State.reset.withFetchWord 128 0x00000000000000030000000000001201)) =
      (some [true, true, true], none) := by decide

/-- Assembler lines of program P1 and P2, comments and upper case included (R72, R73). -/
theorem test_assemble_line : assembleLine "  BVSET cols, 0, 0x8, 2, true # S3".toList =
    some (.bvset .cols 0 8 2 true) := by decide +kernel

theorem test_assemble_pseudo : assembleWords "colw\nroww\n".toList = some [0x4, 0x104] := by decide +kernel

/-! ## One step of each command -/

/-- V-BV-13. -/
theorem test_bvnew_replaces : vectors (exec (.bvnew .cols 3 true) (withVectors (some (vec "TFTFTFTF")) none)) =
    (some (vec "TTT"), none) := by decide

/-- MAXLEN = 1024 (95_test_vectors.md, BitVector family). -/
theorem test_bvnew_over_capacity : sent (exec (.bvnew .cols 1025 false) (withMax 1024)) = [5] := by decide

/-- V-BV-3. -/
theorem test_bvset_strided : vectors (exec (.bvset .cols 0 12 4 true) (withVectors (some (vec "FFFFFFFFFF")) none)) =
    (some (vec "TFFFTFFFTF"), none) := by decide

/-- V-BV-4. -/
theorem test_bvset_out_of_bounds :
    sent (exec (.bvset .cols 0 11 5 true) (withVectors (some (vec "FFFFFFFFFF")) none)) = [1] := by decide

/-- V-BV-12. -/
theorem test_bvget_true : sent (exec (.bvget .cols 2) (withVectors (some (vec "TFTFTFTF")) none)) =
    [0x10000, 1] := by decide

/-- V-BV-12. -/
theorem test_bvget_at_length :
    sent (exec (.bvget .cols 8) (withVectors (some (vec "TFTFTFTF")) none)) = [1] := by decide

/-- V-PACK-3. -/
theorem test_bvpack_colw : sent (exec (.bvpack .cols) (withVectors (some colsA) (some rowsA))) =
    [0x10000, 0xF00F] := by decide

/-- V-PACK-1, 65 elements. -/
theorem test_bvpack_second_word : sent (exec (.bvpack .rows) (withVectors none (some (List.replicate 65 true)))) =
    [0x20000, 0xFFFFFFFFFFFFFFFF, 1] := by decide +kernel

/-- P2, command 1. -/
theorem test_apmnew : vectors (exec (.apmnew 16 4 true) State.reset) =
    (some (vec "TTTTTTTTTTTTTTTT"), some (vec "TTTT")) := by decide

/-- V-APM-1. -/
theorem test_apmclr : vectors (exec (.apmclr 4 1 8 2) (withVectors (some (List.replicate 16 true))
    (some (vec "TTTT")))) = (some colsA, some rowsA) := by decide

/-- V-APM-7: neither register is cleared. -/
theorem test_apmclr_is_atomic : vectors (exec (.apmclr 15 3 2 1) (withVectors (some (List.replicate 16 true))
    (some (vec "TTTT")))) = (some (List.replicate 16 true), some (vec "TTTT")) := by decide

/-- V-PACK-4. -/
theorem test_emitcfg_intersection : sent (exec (.emitcfg .intersection) (withVectors (some colsA) (some rowsA))) =
    [0x40000, 1, 1, 0xF00F, 0x9] := by decide

/-- V-PACK-4, 70 columns and no row. -/
theorem test_emitcfg_no_row_word :
    sent (exec (.emitcfg .intersection) (withVectors (some (List.replicate 70 true)) (some []))) =
      [0x40000, 1, 2, 0xFFFFFFFFFFFFFFFF, 0x3F] := by decide +kernel

/-- V-CMP-5, projection B under INTERSECTION with the flip. -/
theorem test_compose_intersection_flip :
    gridOf (exec (.compose .intersection true) (withVectors (some colsA) (some (vec "FTTT")))) =
      some (pic 16 ["0000111111110000", "0000111111110000", "0000111111110000", "1111111111111111"]) := by
  decide +kernel

/-- V-CMP-2. -/
theorem test_compose_union : gridOf (exec (.compose .union false) (withVectors (some colsA) (some rowsA))) =
    some (pic 16 ["0000000000000000", "0000111111110000", "0000111111110000", "0000000000000000"]) := by
  decide +kernel

/-- V-ENC-1. -/
theorem test_encode_file : fileOf (exec .encode (withGrid (pic 8 ["11111111"]) .ok)) = .content fileEnc1 := by
  decide +kernel

/-- V-ENC-8. -/
theorem test_encode_sink_failure : sent (exec .encode (withGrid (pic 8 ["11111111"]) (.fail 0x1C))) =
    [0x10003, 0x1C] := by decide +kernel

/-- V-ZLIB-4: a stream with the fixed code, which StoredDeflate never writes. -/
theorem test_zlib_fixed_code :
    zlibDecode [0x78, 0xDA, 0x63, 0xF8, 0x0F, 0x00, 0x01, 0x01, 0x01, 0x00] = some [0x00, 0xFF] := by decide +kernel

/-- V-CRC-2. -/
theorem test_crc : crc32 ("123456789".toList.map fun c => BitVec.ofNat 8 c.toNat) = 0xCBF43926 := by decide +kernel

/-- V-ADL-3. -/
theorem test_adler :
    adler32 [0x00, 0x0F, 0xF0, 0x00, 0xFF, 0xFF, 0x00, 0xFF, 0xFF, 0x00, 0x0F, 0xF0] = 0x230705FB := by
  decide +kernel

/-- The decoder inverts the encoder on V-ENC-1. -/
theorem test_decode_raster : decodeRaster fileEnc1 = some (pic 8 ["11111111"]) := by decide +kernel

/-- V-ERR-1: the header 2302 with its two words, whatever stands in the registers. -/
theorem test_illegal_command : sent (step (withWords [0x2302, 5, 15])) = [6] := by decide

/-- R257: the host holds back, so the response to the first command stands and the second command does not start. -/
theorem test_untaken_response_stops_the_next_command :
    (stateOf (step { withWords [0x104, 0x4] with taking := .free })).bind (fun t => stateOf (step t)) =
      some (respond (.err .notConstructed none) { withWords [0x4] with taking := .free }) := by decide

/-- R257: once it is taken, the second command runs. -/
theorem test_taken_response_lets_the_next_command_start :
    (stateOf (step { withWords [0x104, 0x4] with taking := .free })).map (fun t => sent (step (hostTake t))) =
      some [4, 4] := by decide

/-! ## Witnesses: concrete states and operands that meet a statement's hypotheses together, clause by clause -/

/-- The outcome is a next state that has added this response. -/
def answers (o : Host.Outcome State Fault Refusal) (s : State) (r : Response) : Bool :=
  match o with
  | .next t => t.respOut == s.respOut ++ [r]
  | .fault _ => false
  | .refused _ => false

theorem answers_next {o : Host.Outcome State Fault Refusal} {s : State} {r : Response} (h : answers o s r = true) :
    ∃ t, o = .next t ∧ t.respOut = s.respOut ++ [r] := by
  cases o with
  | next t => exact ⟨t, rfl, by simpa [answers] using h⟩
  | fault f => cases h
  | refused f => cases h

/-- The state of V-APM-1. -/
def stateA : State := withVectors (some colsA) (some rowsA)

/-- The state of V-ENC-8 with ENCODE on the command port, for an answer of the sink. -/
def encodeNext (a : SinkAnswer) : State := { withGrid (pic 8 ["11111111"]) a with cmdIn := [0x30] }

theorem stateA_inv : stateA.Inv :=
  ⟨fun _ _ _ _ hm => (nomatch hm), fun _ hg => (nomatch hg), fun _ hg => (nomatch hg)⟩

theorem witness_DecodeEncodeRoundTrip : WellFormed (.apmclr (2 ^ 64 - 1) 0 (2 ^ 64 - 1) 0) := by decide

theorem witness_DecodedWordsAreTheEncoding : decode [0x3202, 0, 8, 2, 7] = .command (.bvset .cols 0 8 2 true) [7] := by
  decide

theorem witness_DecodeFollowsMatchAndMask_incomplete :
    ([1, 2] : List Word).length < ((0x3202 : Word).extractLsb' 12 4).toNat := by decide

theorem witness_DecodeFollowsMatchAndMask_illegal :
    ((0x2302 : Word).extractLsb' 12 4).toNat ≤ ([5, 15] : List Word).length ∧ NoRowMatches 0x2302 :=
  ⟨by decide, fun op => by cases op <;> decide⟩

theorem witness_DecodeFollowsMatchAndMask_command :
    ((0x3302 : Word).extractLsb' 12 4).toNat ≤ ([0, 8, 2] : List Word).length ∧
      (0x3302 : Word) &&& Decode.maskWord .bvset = Decode.matchWord .bvset := by decide

theorem witness_ResponseHeaderFields :
    (payloadWords (.ok (.count 70))).length < 2 ^ 48 ∧
      ∃ t, exec .encode (encodeNext (.fail 0x1C)) = .next t ∧
        t.respOut = (encodeNext (.fail 0x1C)).respOut ++ [.err .ioFailure (some 0x1C)] :=
  ⟨by decide, answers_next (by decide +kernel)⟩

theorem witness_ResponsesFitTheirFraming :
    (withMax (2 ^ 53 - 128)).Inv ∧ (withMax (2 ^ 53 - 128)).conf.maxLen = some (2 ^ 53 - 128) ∧
      ∃ t, exec (.emitcfg .union) (withMax (2 ^ 53 - 128)) = .next t ∧
        t.respOut = (withMax (2 ^ 53 - 128)).respOut ++ [.ok (.config [3] [1] false)] := by
  refine ⟨⟨?_, fun _ hg => (nomatch hg), fun _ hg => (nomatch hg)⟩, rfl, answers_next (by decide)⟩
  intro sel v hv m hm
  cases hm
  cases sel <;> cases hv <;> decide

theorem witness_AssembledCommandsAreWellFormed :
    assembleLine "apmclr 4, 1, 8, 0x2".toList = some (.apmclr 4 1 8 2) ∧
      number "0xFFFFFFFFFFFFFFFF".toList = some (2 ^ 64 - 1) ∧ number "0".toList = some 0 ∧
      '\n' ∉ "colw".toList ∧ assembleLine "colw".toList = some (.bvpack .cols) ∧
      assemble "encode # last".toList = some [.encode] := by decide +kernel

theorem witness_StepRunsTheDecodedCommand :
    (withWords [0x1103, 5, 9]).taking ≠ .untaken ∧ WellFormed (.bvget .rows 5) ∧
      decode (withWords [0x1103, 5, 9]).cmdIn = .command (.bvget .rows 5) [9] := by decide

theorem witness_IllegalCommandIsConsumedAndAnswered :
    (withWords [0xF0FF, 1, 2, 3, 4, 5, 6, 7, 8, 9, 10, 11, 12, 13, 14, 15]).taking ≠ .untaken ∧
      (withWords [0xF0FF, 1, 2, 3, 4, 5, 6, 7, 8, 9, 10, 11, 12, 13, 14, 15]).cmdIn =
        0xF0FF :: [1, 2, 3, 4, 5, 6, 7, 8, 9, 10, 11, 12, 13, 14, 15] ∧
      ((0xF0FF : Word).extractLsb' 12 4).toNat ≤ 15 ∧ NoRowMatches 0xF0FF :=
  ⟨by decide, rfl, by decide, fun op => by cases op <;> decide⟩

theorem witness_IncompleteCommandWaits :
    (withWords []).cmdIn = [] ∧ (withWords [0x4011, 4, 1, 8]).cmdIn = 0x4011 :: [4, 1, 8] ∧
      ([4, 1, 8] : List Word).length < ((0x4011 : Word).extractLsb' 12 4).toNat := ⟨rfl, rfl, by decide⟩

theorem witness_IncompleteCommandWaits_untaken :
    { withWords [0x4] with taking := .untaken }.taking = .untaken ∧
      decode { withWords [0x4] with taking := .untaken }.cmdIn = .command (.bvpack .cols) [] := by decide

theorem witness_LaterWordsDoNotDisturb :
    decode (withWords [0x104]).cmdIn ≠ .incomplete ∧ ∃ t, step (withWords [0x104]) = .next t := ⟨by decide, _, rfl⟩

theorem witness_ErrorLeavesStateAsBefore_illegal :
    ∃ t, step (withWords [0x130]) = .next t ∧
      t.respOut = (withWords [0x130]).respOut ++ [.err .illegalCommand none] := answers_next (by decide)

theorem witness_ErrorLeavesStateAsBefore_ioFailure :
    ∃ t, step (encodeNext (.fail 0x1C)) = .next t ∧
      t.respOut = (encodeNext (.fail 0x1C)).respOut ++ [.err .ioFailure (some 0x1C)] :=
  answers_next (by decide +kernel)

theorem witness_StepKeepsInvariant :
    { stateA with cmdIn := [0x4011, 4, 1, 8, 2] }.Inv ∧
      ∃ t, step { stateA with cmdIn := [0x4011, 4, 1, 8, 2] } = .next t :=
  ⟨⟨stateA_inv.vectors, stateA_inv.gridSize, stateA_inv.gridRows⟩, _, rfl⟩

theorem witness_ResetIsWellFormed : stateA.Inv := stateA_inv

theorem witness_StepOnlyExtendsThePorts : ∃ t, step { stateA with cmdIn := [0x20] } = .next t := ⟨_, rfl⟩

theorem witness_FileIsTheLastWrite :
    (∀ bytes, { stateA with file := .content [7], sinkOut := [[7]], cmdIn := [0x20] }.file = .content bytes →
        { stateA with file := .content [7], sinkOut := [[7]], cmdIn := [0x20] }.sinkOut.getLast? = some bytes) ∧
      ∃ t, step { stateA with file := .content [7], sinkOut := [[7]], cmdIn := [0x20] } = .next t ∧
        t.file = .content [7] :=
  ⟨fun _ h => by cases h; rfl, _, rfl, rfl⟩

theorem witness_ReadingNothingIsNotConstructed :
    readV .cols State.reset = none ∧ readV .rows (withVectors (some colsA) none) = none ∧
      (withVectors (some colsA) none).rows = none ∧ stateA.grid = none := ⟨rfl, rfl, rfl, rfl⟩

theorem witness_ReadersFrame :
    (∃ t, exec (.bvget .rows 3) stateA = .next t) ∧ (∃ t, exec (.bvpack .cols) stateA = .next t) ∧
      ∃ t, exec (.emitcfg .union) stateA = .next t := ⟨⟨_, rfl⟩, ⟨_, rfl⟩, _, rfl⟩

theorem witness_OneVectorWritersFrame :
    (∃ t, exec (.bvnew .rows 3 true) stateA = .next t ∧ t.respOut = stateA.respOut ++ [.ok .empty]) ∧
      ∃ t, exec (.bvset .rows 0 4 3 false) stateA = .next t ∧ t.respOut = stateA.respOut ++ [.ok .empty] :=
  ⟨answers_next (by decide), answers_next (by decide)⟩

theorem witness_BothVectorsWritersFrame :
    (∃ t, exec (.apmnew 0 3 true) stateA = .next t ∧ t.respOut = stateA.respOut ++ [.ok .empty]) ∧
      ∃ t, exec (.apmclr 15 3 1 1) stateA = .next t ∧ t.respOut = stateA.respOut ++ [.ok .empty] :=
  ⟨answers_next (by decide), answers_next (by decide)⟩

theorem witness_ComposeAndEncodeFrame :
    (∃ t, exec (.compose .union true) stateA = .next t ∧ t.respOut = stateA.respOut ++ [.ok .empty]) ∧
      ∃ t, exec .encode (encodeNext .ok) = .next t ∧
        t.respOut = (encodeNext .ok).respOut ++ [.ok (.count 70)] :=
  ⟨answers_next (by decide), answers_next (by decide +kernel)⟩

/-- What an outcome's state holds in a vector register. -/
def vectorOf (sel : Sel) (o : Host.Outcome State Fault Refusal) : Option BoolVec :=
  match o with
  | .next t => readV sel t
  | .fault _ => none
  | .refused _ => none

theorem witness_OnlyTheListedCommandsWrite :
    gridOf (exec (.compose .union true) stateA) ≠ stateA.grid ∧
      fileOf (exec .encode (encodeNext .ok)) ≠ (encodeNext .ok).file ∧
      vectorOf .rows (exec (.bvset .rows 1 2 1 true) stateA) ≠ readV .rows stateA :=
  ⟨by decide, by decide +kernel, by decide⟩

theorem witness_LengthFixedByConstruction :
    readV .rows stateA = some rowsA ∧ ∃ t, exec (.bvnew .rows 5 true) stateA = .next t ∧
      readV .rows t = some (vec "TTTTT") ∧ (vec "TTTTT").length ≠ rowsA.length := ⟨rfl, _, rfl, rfl, by decide⟩

theorem witness_SinkWrittenOnceByEncodeOnly :
    ∃ t, exec .encode (encodeNext .ok) = .next t ∧ t.respOut = (encodeNext .ok).respOut ++ [.ok (.count 70)] :=
  answers_next (by decide +kernel)

/-- At the capacity itself. -/
theorem witness_BvnewConstructsFilledVector : WithinMax (withMax 1024).conf 1024 :=
  fun _ h => by cases h; decide

/-- One above the capacity, for BVNEW and for one of the two lengths of APMNEW. -/
theorem witness_ViolatedPreconditionChangesNothing :
    ¬ WithinMax (withMax 1024).conf 1025 ∧ WithinMax (withMax 1024).conf 1024 ∧
      ¬ (WithinMax (withMax 1024).conf 1024 ∧ WithinMax (withMax 1024).conf 1025) :=
  ⟨fun h => absurd (h 1024 rfl) (by decide), fun _ h => by cases h; decide,
    fun h => absurd (h.2 1024 rfl) (by decide)⟩

theorem witness_VisitedClosedForm : (1 ≤ 1 ∧ 9 < 10) ∧ 1 ≤ 2 ^ 64 - 1 ∧ 7 ≤ 7 := by decide

/-- V-BV-3: the last visited index is the last element. -/
theorem witness_BvsetWritesTheVisitedElements_ok :
    readV .cols (withVectors (some (vec "FFFFFFFFF")) none) = some (vec "FFFFFFFFF") ∧ 1 ≤ 4 ∧
      ∀ i, Visited 0 12 4 i → i < (vec "FFFFFFFFF").length := by
  refine ⟨rfl, by decide, ?_⟩
  rintro i ⟨j, rfl, hj⟩
  show 0 + j * 4 < 9
  omega

/-- V-BV-4: the last visited index is the length. -/
theorem witness_BvsetWritesTheVisitedElements_out :
    readV .cols (withVectors (some (vec "FFFFFFFFFF")) none) = some (vec "FFFFFFFFFF") ∧ 1 ≤ 5 ∧
      ∃ i, Visited 0 11 5 i ∧ (vec "FFFFFFFFFF").length ≤ i :=
  ⟨rfl, by decide, 10, ⟨2, by decide, by decide⟩, by decide⟩

/-- Two BVSET commands that succeed after each other, with the same value and with different values. -/
theorem witness_BvsetsCommuteOrLaterWins :
    ∀ val', ∃ t u, exec (.bvset .rows 0 4 1 true) stateA = .next t ∧
      t.respOut = stateA.respOut ++ [.ok .empty] ∧ exec (.bvset .rows 3 4 7 val') t = .next u ∧
      u.respOut = t.respOut ++ [.ok .empty] := fun _ => ⟨_, _, rfl, rfl, rfl, rfl⟩

theorem witness_BvgetReadsTheElement :
    readV .cols stateA = some colsA ∧ colsA[15]? = some true ∧ colsA.length ≤ 16 ∧ readV .rows State.reset = none := by
  decide

theorem witness_ApmnewConstructsBoth :
    WithinMax (withMax 1024).conf 1024 ∧ WithinMax (withMax 1024).conf 0 :=
  ⟨fun _ h => by cases h; decide, fun _ h => by cases h; decide⟩

/-- Ranges that end at the length, and empty ones outside. -/
theorem witness_ApmclrClearsBothOrNeither_ok :
    stateA.cols = some colsA ∧ stateA.rows = some rowsA ∧ RangeFits colsA.length 15 1 ∧ RangeFits rowsA.length 99 0 :=
  ⟨rfl, rfl, .inr (by decide), .inl rfl⟩

/-- V-APM-7: one column too many; and a register that holds nothing. -/
theorem witness_ApmclrClearsBothOrNeither_out :
    stateA.cols = some colsA ∧ stateA.rows = some rowsA ∧
      ¬ (RangeFits colsA.length 15 2 ∧ RangeFits rowsA.length 3 1) ∧ State.reset.cols = none := by
  refine ⟨rfl, rfl, ?_, rfl⟩
  rintro ⟨h | h, -⟩ <;> exact absurd h (by decide)

/-- One that succeeds, and one whose column range is one too long. -/
theorem witness_ApmclrIsIdempotent :
    (∃ t u, exec (.apmclr 4 1 8 2) stateA = .next t ∧ exec (.apmclr 4 1 8 2) t = .next u) ∧
      ∃ t u, exec (.apmclr 15 3 2 1) stateA = .next t ∧ exec (.apmclr 15 3 2 1) t = .next u ∧
        t.respOut = stateA.respOut ++ [.err .indexOutOfRange none] := ⟨⟨_, _, rfl, rfl⟩, _, _, rfl, rfl, rfl⟩

/-- V-APM-9. -/
theorem witness_SuccessfulClearsExchangeAxes :
    ∃ t u, exec (.apmclr 0 0 4 1) stateA = .next t ∧ t.respOut = stateA.respOut ++ [.ok .empty] ∧
      exec (.apmclr 12 3 4 1) t = .next u ∧ u.respOut = t.respOut ++ [.ok .empty] := ⟨_, _, rfl, rfl, rfl, rfl⟩

/-- A list with a rectangle that fits and one that does not. -/
theorem witness_ClearListClearsTheUnion :
    (withVectors (some (List.replicate 16 true)) (some (List.replicate 4 true))).cols = some (List.replicate 16 true) ∧
      (withVectors (some (List.replicate 16 true)) (some (List.replicate 4 true))).rows = some (List.replicate 4 true) ∧
      (⟨15, 3, 1, 1⟩ : Rect).Fits 16 4 ∧ ¬ (⟨15, 3, 2, 1⟩ : Rect).Fits 16 4 := by
  refine ⟨rfl, rfl, ⟨.inr (by decide), .inr (by decide)⟩, ?_⟩
  rintro ⟨h | h, -⟩ <;> exact absurd h (by decide)

theorem witness_BvpackAnswersThePackedBits : readV .rows stateA = some rowsA := rfl

/-- The last element, the first padding bit, two vectors of one length with the same words. -/
theorem witness_PackIsInjectiveAtALength :
    rowsA[3]? = some true ∧ ((pack rowsA)[0]? = some 9 ∧ 4 < 64 ∧ rowsA.length ≤ 64 * 0 + 4) ∧
      rowsA.length = rowsA.length := by decide

/-- V-PACK-2. -/
theorem witness_PackedBytesAreLittleEndian : (packBytes (vec "TFFFFFFFFTFFFFFF"))[1]? = some 2 := by decide

theorem witness_PackAfterBvset :
    ∃ t, exec (.bvset .rows 3 4 1 false) stateA = .next t ∧ t.respOut = stateA.respOut ++ [.ok .empty] ∧
      readV .rows stateA = some rowsA ∧ readV .rows t = some (vec "TFFF") ∧ (pack rowsA)[0]? = some 9 ∧
      (pack (vec "TFFF"))[0]? = some 1 := ⟨_, rfl, rfl, rfl, rfl, by decide, by decide⟩

theorem witness_EmitcfgAgreesWithBvpack : stateA.cols = some colsA ∧ stateA.rows = some rowsA := ⟨rfl, rfl⟩

/-- The last row, flipped and not. -/
theorem witness_ComposeGridCells :
    stateA.cols = some colsA ∧ stateA.rows = some rowsA ∧ colsA[15]? = some true ∧ 3 < rowsA.length ∧
      rowsA[rowsA.length - 1 - 3]? = some true ∧ rowsA[3]? = some true := ⟨rfl, rfl, by decide⟩

theorem witness_PoliciesAreDeMorganDuals : 3 < rowsA.length ∧ 15 < colsA.length := by decide

theorem enc1_wf : (pic 8 ["11111111"]).Wf := by unfold Grid.Wf; decide

theorem witness_RowBytesHoldThePixels :
    (pic 8 ["11111111"]).Wf ∧ 0 < (pic 8 ["11111111"]).h ∧ (rowBytes (pic 8 ["11111111"]) 0)[0 + 1]? = some 0xFF :=
  ⟨enc1_wf, by decide, by decide⟩

theorem witness_RawConcatenatesTheRows : 0 < (pic 8 ["11111111"]).h ∧ 1 < 1 + ((pic 8 ["11111111"]).w + 7) / 8 := by
  decide

theorem witness_EncodedLength :
    (pic 8 ["11111111"]).w % 8 = 0 ∧ 2 = (pic 8 ["11111111"]).h * (1 + (pic 8 ["11111111"]).w / 8) ∧
      1 = max 1 ((2 + 65534) / 65535) := by decide

/-- A grid the encoder accepts. -/
theorem encodable_enc1 : (pic 8 ["11111111"]).Encodable .stored := by constructor <;> decide +kernel

theorem witness_RasterRoundTrip : (pic 8 ["11111111"]).Wf ∧ (pic 8 ["11111111"]).Encodable .stored :=
  ⟨enc1_wf, encodable_enc1⟩

/-- A width of 10 is refused (V-ENC-7), a width of 8 accepted. -/
theorem witness_EncodeRefusesExactlyTheUnsupported :
    (withGrid (pic 10 ["1111111111"]) .ok).grid = some (pic 10 ["1111111111"]) ∧
      ¬ (pic 10 ["1111111111"]).Encodable (withGrid (pic 10 ["1111111111"]) .ok).conf.compressor ∧
      (encodeNext .ok).grid = some (pic 8 ["11111111"]) ∧
      (pic 8 ["11111111"]).Encodable (encodeNext .ok).conf.compressor :=
  ⟨rfl, fun h => absurd h.widthBytes (by decide), rfl, encodable_enc1⟩

theorem witness_EncodeOkFileDecodesToTheGrid :
    (encodeNext .ok).grid = some (pic 8 ["11111111"]) ∧ (pic 8 ["11111111"]).Wf ∧
      (pic 8 ["11111111"]).Encodable (encodeNext .ok).conf.compressor ∧
      sinkAnswer (encodeGrid (encodeNext .ok).conf.compressor (pic 8 ["11111111"])) (encodeNext .ok) = .ok :=
  ⟨rfl, enc1_wf, encodable_enc1, rfl⟩

theorem witness_EncodePassesTheSinkFailureOn :
    (encodeNext (.fail 0x1C)).grid = some (pic 8 ["11111111"]) ∧
      (pic 8 ["11111111"]).Encodable (encodeNext (.fail 0x1C)).conf.compressor ∧
      sinkAnswer (encodeGrid (encodeNext (.fail 0x1C)).conf.compressor (pic 8 ["11111111"]))
        (encodeNext (.fail 0x1C)) = .fail 0x1C :=
  ⟨rfl, encodable_enc1, rfl⟩

end Sys2Proof.Tests
end

section
/-! PROOFS. The step on a complete command (spec/30_encoding.md R64, spec/70_reset_and_hazards.md R257). -/

namespace Sys2Proof.Machine

/-- No response stands, and `fetch` gives a command: the step is that command's execution. -/
theorem step_of_command {s : State} {i : Instr} {rest : List Word} (hfree : s.taking ≠ .untaken)
    (hcmd : decode s.cmdIn = .command i rest) : step s = exec i (consumed rest s) := by
  have hstands : ¬ responseStands s = true := mt responseStands_iff.1 hfree
  have hfetch : fetch s = .command i rest := hcmd
  rw [step, if_neg hstands, hfetch]

/-- Settles O8: `consumed` changes `cmdIn` and nothing else. -/
theorem stepRunsTheDecodedCommand : Obligations.StepRunsTheDecodedCommand := by
  intro s i rest hfree _ hcmd
  calc step s = exec i (consumed rest s) := step_of_command hfree hcmd
    _ = exec i { s with cmdIn := rest } := by rw [consumed]

end Sys2Proof.Machine
end

section
/-! PROOFS. What a command does beside its response: one write to the state, at most (spec/10_state.md R20 to R25). -/

namespace Sys2Proof.Machine

/-- What a command may write beside its response. -/
inductive Effect where
  | nothing
  | vector (sel : Sel) (v : BoolVec)
  | bothVectors (c r : BoolVec)
  | grid (g : Grid)
  /-- One sink write and what FILE holds after it (R174). -/
  | image (bytes : List Byte) (f : FileState)

/-- The state after the write, by the operations the meanings of the commands use. -/
def Effect.apply : Effect → State → State
  | .nothing => id
  | .vector sel v => writeV sel v
  | .bothVectors c r => writeBoth c r
  | .grid g => writeGrid g
  | .image bytes f => fun s => writeFile f (sinkWritten bytes s)

namespace Effect

variable (s : State)

@[simp] theorem apply_nothing : apply .nothing s = s := rfl
@[simp] theorem apply_vector (sel : Sel) (v : BoolVec) : apply (.vector sel v) s = writeV sel v s := rfl
@[simp] theorem apply_bothVectors (c r : BoolVec) : apply (.bothVectors c r) s = writeBoth c r s := rfl
@[simp] theorem apply_grid (g : Grid) : apply (.grid g) s = writeGrid g s := rfl
@[simp] theorem apply_image (bytes : List Byte) (f : FileState) :
    apply (.image bytes f) s = writeFile f (sinkWritten bytes s) := rfl

@[simp] theorem apply_respOut (e : Effect) : (e.apply s).respOut = s.respOut := by
  cases e <;> simp

end Effect

/-- Which writes a command may do from a state. A command that only reads does `nothing`, and so does one that ends in
an error other than IOFailure (R229). -/
inductive HasEffect (s : State) : Instr → Effect → Prop
  | nothing {i : Instr} : HasEffect s i .nothing
  | bvnew {sel : Sel} {n : Nat} {val : Bool} (fits : fitsMax s.conf n = true) :
      HasEffect s (.bvnew sel n val) (.vector sel (newVec n val))
  | bvset {sel : Sel} {a b k : Nat} {val : Bool} {v v' : BoolVec} (held : readV sel s = some v)
      (set : setRange v a b k val = some v') : HasEffect s (.bvset sel a b k val) (.vector sel v')
  | apmnew {w h : Nat} {val : Bool} (fitsCols : fitsMax s.conf w = true) (fitsRows : fitsMax s.conf h = true) :
      HasEffect s (.apmnew w h val) (.bothVectors (newVec w val) (newVec h val))
  | apmclr {x y w h : Nat} {c r c' r' : BoolVec} (cols : s.cols = some c) (rows : s.rows = some r)
      (setCols : setRange c x (x + w) 1 false = some c') (setRows : setRange r y (y + h) 1 false = some r') :
      HasEffect s (.apmclr x y w h) (.bothVectors c' r')
  | compose {pol : Policy} {flip : Bool} {c r : BoolVec} (cols : s.cols = some c) (rows : s.rows = some r) :
      HasEffect s (.compose pol flip) (.grid (compose c r pol flip))
  | encode {g : Grid} {f : FileState} (grid : s.grid = some g)
      (file : f = .content (encodeGrid s.conf.compressor g) ∨ f = .indeterminate) :
      HasEffect s .encode (.image (encodeGrid s.conf.compressor g) f)

/-- Every command's next state is one of its writes, then its response. -/
theorem exec_cases {i : Instr} {s t : State} (h : exec i s = .next t) :
    ∃ r e, HasEffect s i e ∧ t = respond r (e.apply s) := by
  have onlyResponds : ∀ r, t = respond r s → ∃ r e, HasEffect s i e ∧ t = respond r (e.apply s) :=
    fun r ht => ⟨r, .nothing, .nothing, ht⟩
  cases i with
  | bvnew sel n val =>
    obtain ⟨hfits, ht⟩ | ⟨-, ht⟩ := execBvnew_cases h
    · exact ⟨_, _, .bvnew hfits, ht⟩
    · exact onlyResponds _ ht
  | bvset sel a b k val =>
    obtain ⟨-, ht⟩ | ⟨v, hv, ⟨-, ht⟩ | ⟨-, -, ht⟩ | ⟨v', -, hset, ht⟩⟩ := execBvset_cases h
    · exact onlyResponds _ ht
    · exact onlyResponds _ ht
    · exact onlyResponds _ ht
    · exact ⟨_, _, .bvset hv hset, ht⟩
  | bvget sel j =>
    obtain ⟨-, ht⟩ | ⟨v, -, ⟨-, ht⟩ | ⟨b, -, ht⟩⟩ := execBvget_cases h <;> exact onlyResponds _ ht
  | bvpack sel =>
    obtain ⟨-, ht⟩ | ⟨v, -, ht⟩ := execBvpack_cases h <;> exact onlyResponds _ ht
  | apmnew w h' val =>
    obtain ⟨hw, hh, ht⟩ | ⟨-, ht⟩ := execApmnew_cases h
    · exact ⟨_, _, .apmnew hw hh, ht⟩
    · exact onlyResponds _ ht
  | apmclr x y w h' =>
    obtain ⟨-, ht⟩ | ⟨c, r, hc, hr, ⟨-, ht⟩ | ⟨c', r', hc', hr', ht⟩⟩ := execApmclr_cases h
    · exact onlyResponds _ ht
    · exact onlyResponds _ ht
    · exact ⟨_, _, .apmclr hc hr hc' hr', ht⟩
  | emitcfg pol =>
    obtain ⟨-, ht⟩ | ⟨c, r, -, -, ht⟩ := execEmitcfg_cases h <;> exact onlyResponds _ ht
  | compose pol flip =>
    obtain ⟨-, ht⟩ | ⟨c, r, hc, hr, ht⟩ := execCompose_cases h
    · exact onlyResponds _ ht
    · exact ⟨_, _, .compose hc hr, ht⟩
  | encode =>
    obtain ⟨-, ht⟩ | ⟨g, hg, ⟨-, ht⟩ | ⟨-, -, ht⟩ | ⟨code, -, -, ht⟩⟩ := execEncode_cases h
    · exact onlyResponds _ ht
    · exact onlyResponds _ ht
    · exact ⟨_, _, .encode hg (.inl rfl), ht⟩
    · exact ⟨_, _, .encode hg (.inr rfl), ht⟩

end Sys2Proof.Machine
end

section
/-! PROOFS. The well-formedness of the state (spec/10_state.md R35): reset establishes it and every step keeps it. -/

namespace Sys2Proof.Machine

variable {s t : State}

namespace State.Inv

/-- The invariant speaks of the vectors, the grid and the configuration only. -/
theorem of_eq (hs : s.Inv) (hv : ∀ sel, readV sel t = readV sel s) (hg : t.grid = s.grid) (hc : t.conf = s.conf) :
    t.Inv where
  vectors sel v h := hc ▸ hs.vectors sel v (hv sel ▸ h)
  gridSize g h := hc ▸ hs.gridSize g (hg ▸ h)
  gridRows g h := hs.gridRows g (hg ▸ h)

theorem of_nothing_constructed (hv : ∀ sel, readV sel s = none) (hg : s.grid = none) : s.Inv where
  vectors sel v h := by simp [hv] at h
  gridSize g h := by simp [hg] at h
  gridRows g h := by simp [hg] at h

theorem respond (hs : s.Inv) (r : Response) : (respond r s).Inv :=
  hs.of_eq (fun sel => readV_respond s sel r) rfl rfl

theorem consumed (hs : s.Inv) (rest : List Word) : (consumed rest s).Inv :=
  hs.of_eq (fun sel => readV_consumed s sel rest) rfl rfl

theorem writeV (hs : s.Inv) (sel : Sel) {v : BoolVec} (hv : WithinMax s.conf v.length) : (writeV sel v s).Inv where
  vectors sel' v' h := by
    rw [readV_writeV] at h
    rw [writeV_conf]
    split at h
    · exact Option.some.inj h ▸ hv
    · exact hs.vectors sel' v' h
  gridSize := by simpa using hs.gridSize
  gridRows := by simpa using hs.gridRows

theorem writeBoth (hs : s.Inv) {c r : BoolVec} (hc : WithinMax s.conf c.length) (hr : WithinMax s.conf r.length) :
    (writeBoth c r s).Inv :=
  (hs.writeV .cols hc).writeV .rows hr

theorem writeGrid (hs : s.Inv) {g : Grid} (hsize : WithinMax s.conf g.h ∧ WithinMax s.conf g.w) (hrows : g.Wf) :
    (writeGrid g s).Inv where
  vectors := by simpa using hs.vectors
  gridSize g' h := Option.some.inj h ▸ hsize
  gridRows g' h := Option.some.inj h ▸ hrows

end State.Inv

@[simp] theorem compose_w (c r : BoolVec) (pol : Policy) (flip : Bool) : (compose c r pol flip).w = c.length := rfl

@[simp] theorem compose_h (c r : BoolVec) (pol : Policy) (flip : Bool) : (compose c r pol flip).h = r.length := by
  simp [compose, Grid.h]

/-- Each row of the composed grid maps over the columns. -/
theorem compose_wf (c r : BoolVec) (pol : Policy) (flip : Bool) : (compose c r pol flip).Wf := by
  intro row hrow
  obtain ⟨y, -, rfl⟩ := List.mem_map.1 hrow
  rw [compose_w, List.length_map]

theorem withinMax_newVec {conf : Config} {n : Nat} (val : Bool) (h : fitsMax conf n = true) :
    WithinMax conf (newVec n val).length := by
  rw [newVec_length]
  exact fitsMax_iff.1 h

/-- Setting a range in a held vector keeps its length, so it stays within MAXLEN. -/
theorem State.Inv.withinMax_setRange (hs : s.Inv) {sel : Sel} {v v' : BoolVec} {a b k : Nat} {val : Bool}
    (hv : readV sel s = some v) (hset : setRange v a b k val = some v') : WithinMax s.conf v'.length := by
  rw [(setRange_some hset).1]
  exact hs.vectors sel v hv

theorem HasEffect.inv {i : Instr} {e : Effect} (he : HasEffect s i e) (hs : s.Inv) : (e.apply s).Inv := by
  cases he with
  | nothing => exact hs
  | bvnew hfits => exact hs.writeV _ (withinMax_newVec _ hfits)
  | bvset hv hset => exact hs.writeV _ (hs.withinMax_setRange hv hset)
  | apmnew hw hh => exact hs.writeBoth (withinMax_newVec _ hw) (withinMax_newVec _ hh)
  | apmclr hc hr hc' hr' =>
    exact hs.writeBoth (hs.withinMax_setRange (sel := .cols) hc hc') (hs.withinMax_setRange (sel := .rows) hr hr')
  | compose hc hr =>
    have hsize := And.intro (hs.vectors .rows _ hr) (hs.vectors .cols _ hc)
    exact hs.writeGrid (by simpa using hsize) (compose_wf _ _ _ _)
  | encode _ _ => exact hs.of_eq (fun sel => by simp) rfl rfl

theorem exec_keeps_inv {i : Instr} (h : exec i s = .next t) (hs : s.Inv) : t.Inv := by
  obtain ⟨r, e, he, rfl⟩ := exec_cases h
  exact (he.inv hs).respond r

/-- Settles O16: waiting and an illegal command leave the pieces of state alone, and what a command writes is within
MAXLEN. -/
theorem stepKeepsInvariant : Obligations.StepKeepsInvariant := by
  intro s t hs h
  obtain ⟨-, rfl⟩ | ⟨-, why, rest, -, rfl⟩ | ⟨-, i, rest, -, hexec⟩ := step_cases h
  · exact hs
  · exact (hs.consumed rest).respond _
  · exact exec_keeps_inv hexec (hs.consumed rest)

/-- Settles O17: nothing is constructed in either state. -/
theorem resetIsWellFormed : Obligations.ResetIsWellFormed :=
  ⟨.of_nothing_constructed (fun sel => by cases sel <;> rfl) rfl,
    fun s => .of_nothing_constructed (readV_applyReset s) rfl⟩

end Sys2Proof.Machine
end

section
/-! PROOFS. Which command writes which piece of state (spec/10_state.md R20 to R25). -/

namespace Sys2Proof.Machine

variable {s t : State} {i : Instr} {e : Effect}

theorem HasEffect.compose_of_grid_ne (he : HasEffect s i e) (h : (e.apply s).grid ≠ s.grid) :
    ∃ pol flip, i = .compose pol flip := by
  cases he with
  | compose _ _ => exact ⟨_, _, rfl⟩
  | _ => simp at h

/-- FILE and the record of sink writes change together, in ENCODE only. -/
theorem HasEffect.file_and_sinkOut (he : HasEffect s i e) :
    ((e.apply s).file = s.file ∧ (e.apply s).sinkOut = s.sinkOut) ∨
      i = .encode ∧ ∃ bytes, ((e.apply s).file = .content bytes ∨ (e.apply s).file = .indeterminate) ∧
        (e.apply s).sinkOut = s.sinkOut ++ [bytes] := by
  cases he with
  | encode _ hfile => exact .inr ⟨rfl, _, hfile, rfl⟩
  | _ => exact .inl (by simp)

theorem HasEffect.writer_of_readV_ne (he : HasEffect s i e) {sel : Sel} (h : readV sel (e.apply s) ≠ readV sel s) :
    (∃ n val, i = .bvnew sel n val) ∨ (∃ a b k val, i = .bvset sel a b k val) ∨
      (∃ w h val, i = .apmnew w h val) ∨ ∃ x y w h, i = .apmclr x y w h := by
  have named : ∀ {sel' v}, readV sel (writeV sel' v s) ≠ readV sel s → sel = sel' := fun hne => by
    by_contra hsel
    exact hne (by rw [readV_writeV, if_neg hsel])
  cases he with
  | bvnew _ => exact .inl ⟨_, _, by rw [named h]⟩
  | bvset _ _ => exact .inr (.inl ⟨_, _, _, _, by rw [named h]⟩)
  | apmnew _ _ => exact .inr (.inr (.inl ⟨_, _, _, rfl⟩))
  | apmclr _ _ _ _ => exact .inr (.inr (.inr ⟨_, _, _, _, rfl⟩))
  | _ => simp at h

/-- Settles O26, piece by piece of the state. -/
theorem onlyTheListedCommandsWrite : Obligations.OnlyTheListedCommandsWrite := by
  intro i s t h
  obtain ⟨r, e, he, rfl⟩ := exec_cases h
  refine ⟨he.compose_of_grid_ne, fun hfile => ?_, fun sel hsel => he.writer_of_readV_ne (by simpa using hsel)⟩
  obtain ⟨hsame, -⟩ | ⟨hi, -⟩ := he.file_and_sinkOut
  · exact absurd hsame hfile
  · exact hi

/-- A range set keeps the length, so only the two constructions put a vector of another length in a register. -/
theorem HasEffect.readV_some (he : HasEffect s i e) {sel : Sel} {v : BoolVec} (hv : readV sel s = some v) :
    ∃ v', readV sel (e.apply s) = some v' ∧
      (v'.length ≠ v.length → (∃ n val, i = .bvnew sel n val) ∨ ∃ w h val, i = .apmnew w h val) := by
  cases he with
  | bvnew _ =>
    simp only [Effect.apply_vector, readV_writeV]
    split
    · rename_i hsel
      exact ⟨_, rfl, fun _ => .inl ⟨_, _, by rw [hsel]⟩⟩
    · exact ⟨v, hv, fun hne => absurd rfl hne⟩
  | bvset held hset =>
    simp only [Effect.apply_vector, readV_writeV]
    split
    · rename_i hsel
      subst hsel
      cases held.symm.trans hv
      exact ⟨_, rfl, fun hne => absurd (setRange_some hset).1 hne⟩
    · exact ⟨v, hv, fun hne => absurd rfl hne⟩
  | apmnew _ _ => exact ⟨_, readV_writeBoth _ _ _ _, fun _ => .inr ⟨_, _, _, rfl⟩⟩
  | apmclr hc hr hc' hr' =>
    refine ⟨_, readV_writeBoth _ _ _ _, fun hne => absurd ?_ hne⟩
    cases sel with
    | cols => cases hc.symm.trans hv; exact (setRange_some hc').1
    | rows => cases hr.symm.trans hv; exact (setRange_some hr').1
  | _ => exact ⟨v, by simpa using hv, fun hne => absurd rfl hne⟩

/-- Settles O27, from what each command's write leaves in the register. -/
theorem lengthFixedByConstruction : Obligations.LengthFixedByConstruction := by
  intro i s t sel v h hv
  obtain ⟨r, e, he, rfl⟩ := exec_cases h
  simpa using he.readV_some hv

/-- FILE, where it is known, is the last entry of the byte port's history (R25). -/
def FileMatchesSink (s : State) : Prop := ∀ bytes, s.file = .content bytes → s.sinkOut.getLast? = some bytes

theorem FileMatchesSink.of_eq (hs : FileMatchesSink s) (hf : t.file = s.file) (ho : t.sinkOut = s.sinkOut) :
    FileMatchesSink t := fun bytes h => ho ▸ hs bytes (hf ▸ h)

theorem HasEffect.fileMatchesSink (he : HasEffect s i e) (hs : FileMatchesSink s) : FileMatchesSink (e.apply s) := by
  obtain ⟨hfile, hout⟩ | ⟨-, bytes, hfile, hout⟩ := he.file_and_sinkOut
  · exact hs.of_eq hfile hout
  · intro bytes' h
    rw [h] at hfile
    obtain hfile | hfile := hfile <;> cases hfile
    rw [hout, List.getLast?_concat]

theorem step_keeps_fileMatchesSink (h : step s = .next t) (hs : FileMatchesSink s) : FileMatchesSink t := by
  obtain ⟨-, rfl⟩ | ⟨-, why, rest, -, rfl⟩ | ⟨-, i, rest, -, hexec⟩ := step_cases h
  · exact hs
  · exact hs.of_eq rfl rfl
  · obtain ⟨r, e, he, rfl⟩ := exec_cases hexec
    have hconsumed : FileMatchesSink (consumed rest s) := hs.of_eq rfl rfl
    exact (he.fileMatchesSink hconsumed).of_eq rfl rfl

/-- Settles O20: at reset FILE is absent, and only ENCODE writes FILE, with what it presents. -/
theorem fileIsTheLastWrite : Obligations.FileIsTheLastWrite :=
  ⟨fun _ h => (nomatch h), fun _ _ hs h => step_keeps_fileMatchesSink h hs⟩

end Sys2Proof.Machine
end

section
/-! PROOFS. What a command reads: from two states that agree on it, the same response and the same write
(spec/10_state.md R28, R31, R32; spec/20_memory.md R53). -/

namespace Sys2Proof.Machine

/-- `s` and `s'` agree on all a command may read: the vectors, the grid, the configuration and the sink's answer. -/
structure SameReads (s s' : State) : Prop where
  cols : s'.cols = s.cols
  rows : s'.rows = s.rows
  grid : s'.grid = s.grid
  conf : s'.conf = s.conf
  sinkAnswer : ∀ bytes, sinkAnswer bytes s' = sinkAnswer bytes s

theorem SameReads.readV {s s' : State} (h : SameReads s s') (sel : Sel) : readV sel s' = readV sel s := by
  cases sel with
  | cols => exact h.cols
  | rows => exact h.rows

/-- Two outcomes, of runs from `s` and from `s'`, with one response and one write. -/
def Alike (s s' : State) (o o' : Host.Outcome State Fault Refusal) : Prop :=
  ∃ r e, o = .next (respond r (Effect.apply e s)) ∧ o' = .next (respond r (Effect.apply e s'))

namespace Alike

variable {s s' : State}

theorem raise (k : ErrKind) (info : Option Word) : Alike s s' (raise k info s) (raise k info s') :=
  ⟨.err k info, .nothing, rfl, rfl⟩

theorem done (p : Payload) (e : Effect) : Alike s s' (done p (e.apply s)) (done p (e.apply s')) :=
  ⟨.ok p, e, rfl, rfl⟩

theorem bvnew (h : SameReads s s') (sel : Sel) (n : Nat) (val : Bool) :
    Alike s s' (execBvnew sel n val s) (execBvnew sel n val s') := by
  rw [execBvnew, execBvnew, h.conf]
  split
  · exact done _ (.vector sel _)
  · exact raise _ _

theorem bvset (h : SameReads s s') (sel : Sel) (a b k : Nat) (val : Bool) :
    Alike s s' (execBvset sel a b k val s) (execBvset sel a b k val s') := by
  rw [execBvset, execBvset, h.readV]
  split
  · exact raise _ _
  · split
    · exact raise _ _
    · split
      · exact raise _ _
      · exact done _ (.vector sel _)

theorem bvget (h : SameReads s s') (sel : Sel) (j : Nat) : Alike s s' (execBvget sel j s) (execBvget sel j s') := by
  rw [execBvget, execBvget, h.readV]
  split
  · exact raise _ _
  · split
    · exact raise _ _
    · exact done _ .nothing

theorem bvpack (h : SameReads s s') (sel : Sel) : Alike s s' (execBvpack sel s) (execBvpack sel s') := by
  rw [execBvpack, execBvpack, h.readV]
  split
  · exact raise _ _
  · exact done _ .nothing

theorem apmnew (h : SameReads s s') (w h' : Nat) (val : Bool) :
    Alike s s' (execApmnew w h' val s) (execApmnew w h' val s') := by
  rw [execApmnew, execApmnew, h.conf]
  split
  · exact done _ (.bothVectors _ _)
  · exact raise _ _

theorem apmclr (h : SameReads s s') (x y w h' : Nat) :
    Alike s s' (execApmclr x y w h' s) (execApmclr x y w h' s') := by
  rw [execApmclr, execApmclr, h.cols, h.rows]
  split
  · split
    · exact done _ (.bothVectors _ _)
    · exact raise _ _
  · exact raise _ _

theorem emitcfg (h : SameReads s s') (pol : Policy) : Alike s s' (execEmitcfg pol s) (execEmitcfg pol s') := by
  rw [execEmitcfg, execEmitcfg, h.cols, h.rows]
  split
  · exact done _ .nothing
  · exact raise _ _

theorem compose (h : SameReads s s') (pol : Policy) (flip : Bool) :
    Alike s s' (execCompose pol flip s) (execCompose pol flip s') := by
  rw [execCompose, execCompose, h.cols, h.rows]
  split
  · exact done _ (.grid _)
  · exact raise _ _

/-- A failed write is an error that has written all the same, so it is no `raise` from the state at the start. -/
theorem encode (h : SameReads s s') : Alike s s' (execEncode s) (execEncode s') := by
  rw [execEncode, execEncode, h.grid, h.conf]
  split
  · exact raise _ _
  · split
    · simp only [h.sinkAnswer]
      split
      · exact done _ (.image _ _)
      · exact ⟨.err .ioFailure (some _), .image _ .indeterminate, rfl, rfl⟩
    · exact raise _ _

end Alike

/-- A command's response and its write are fixed by what commands may read. -/
theorem exec_alike {s s' : State} (h : SameReads s s') (i : Instr) : Alike s s' (exec i s) (exec i s') := by
  cases i with
  | bvnew sel n val => exact .bvnew h sel n val
  | bvset sel a b k val => exact .bvset h sel a b k val
  | bvget sel j => exact .bvget h sel j
  | bvpack sel => exact .bvpack h sel
  | apmnew w h' val => exact .apmnew h w h' val
  | apmclr x y w h' => exact .apmclr h x y w h'
  | emitcfg pol => exact .emitcfg h pol
  | compose pol flip => exact .compose h pol flip
  | encode => exact .encode h

/-- A write does not touch the command port and the response port. -/
theorem Effect.apply_with_ports (e : Effect) (s : State) (ws : List Word) (rs : List Response) (k : RespTaking) :
    e.apply { s with cmdIn := ws, respOut := rs, taking := k } =
      { e.apply s with cmdIn := ws, respOut := rs, taking := k } := by
  cases e with
  | vector sel v => cases sel <;> rfl
  | _ => rfl

/-- A write replaces FILE, or it does not touch it. -/
theorem Effect.apply_with_file (e : Effect) (s : State) (f : FileState) :
    e.apply { s with file := f } = e.apply s ∨
      (e.apply s).file = s.file ∧ e.apply { s with file := f } = { e.apply s with file := f } := by
  cases e with
  | vector sel v => cases sel <;> exact .inr ⟨rfl, rfl⟩
  | image bytes f' => exact .inl rfl
  | _ => exact .inr ⟨rfl, rfl⟩

/-- Settles O14: the two states differ in ports no command reads and no write touches. -/
theorem outcomeIgnoresHistory : Obligations.OutcomeIgnoresHistory := by
  intro i s ws rs k
  have hreads : SameReads s { s with cmdIn := ws, respOut := rs, taking := k } := ⟨rfl, rfl, rfl, rfl, fun _ => rfl⟩
  obtain ⟨r, e, hrun, hrun'⟩ := exec_alike hreads i
  refine ⟨_, r, hrun, by simp, ?_⟩
  rw [hrun', Effect.apply_with_ports, respond_eq]
  rfl

/-- Settles O15: the two states differ in FILE, which no command reads. -/
theorem fileIsNeverRead : Obligations.FileIsNeverRead := by
  intro i s f
  have hreads : SameReads s { s with file := f } := ⟨rfl, rfl, rfl, rfl, fun _ => rfl⟩
  obtain ⟨r, e, hrun, hrun'⟩ := exec_alike hreads i
  refine ⟨_, _, hrun, hrun', ?_⟩
  obtain heq | ⟨hfile, heq⟩ := e.apply_with_file s f
  · exact .inl (by rw [heq])
  · exact .inr ⟨hfile, by rw [heq]; rfl⟩

end Sys2Proof.Machine
end

section
/-! PROOFS. What the readers, COMPOSE and ENCODE leave unchanged (spec/20_memory.md R49). -/

namespace Sys2Proof.Machine

/-- No write belongs to BVGET, BVPACK or EMITCFG. -/
theorem HasEffect.eq_nothing_of_reader {s : State} {i : Instr} {e : Effect} (he : HasEffect s i e)
    (hreader : (∃ sel j, i = .bvget sel j) ∨ (∃ sel, i = .bvpack sel) ∨ ∃ pol, i = .emitcfg pol) : e = .nothing := by
  obtain ⟨sel, j, rfl⟩ | ⟨sel, rfl⟩ | ⟨pol, rfl⟩ := hreader
  · cases he with | nothing => rfl
  · cases he with | nothing => rfl
  · cases he with | nothing => rfl

/-- Settles O22: the command writes nothing, so only its response is left. -/
theorem readersFrame : Obligations.ReadersFrame := by
  intro i s t hreader h
  obtain ⟨r, e, he, rfl⟩ := exec_cases h
  exact ⟨r, by rw [he.eq_nothing_of_reader hreader, Effect.apply_nothing]⟩

/-- Settles O25: COMPOSE writes a grid or nothing, ENCODE an image or nothing. -/
theorem composeAndEncodeFrame : Obligations.ComposeAndEncodeFrame := by
  refine ⟨fun pol flip s t h => ?_, fun s t h => ?_⟩
  · obtain ⟨r, e, he, rfl⟩ := exec_cases h
    cases he with
    | nothing => exact ⟨r, rfl⟩
    | compose _ _ => exact ⟨r, rfl⟩
  · obtain ⟨r, e, he, rfl⟩ := exec_cases h
    cases he with
    | nothing => exact ⟨r, rfl⟩
    | encode _ _ => exact ⟨r, rfl⟩

end Sys2Proof.Machine
end

section
/-! PROOFS. Words behind a complete command (spec/20_memory.md R51, spec/30_encoding.md R64). -/

namespace Sys2Proof

/-- What the decoder found, with more words behind it on the stream. -/
def Decoded.followedBy (ws : List Word) : Decoded → Decoded
  | .incomplete => .incomplete
  | .illegal why rest => .illegal why (rest ++ ws)
  | .command i rest => .command i (rest ++ ws)

/-- A complete command is read from the words its header counts, so later words are only carried along. -/
theorem decode_append {stream : List Word} (hcomplete : decode stream ≠ .incomplete) (ws : List Word) :
    decode (stream ++ ws) = (decode stream).followedBy ws := by
  cases stream with
  | nil => exact absurd rfl hcomplete
  | cons h ops =>
    have harrived : Decode.nopsField h ≤ ops.length := by
      by_contra hshort
      exact hcomplete (if_pos (Nat.lt_of_not_le hshort))
    have harrived' : Decode.nopsField h ≤ (ops ++ ws).length := by
      rw [List.length_append]; omega
    rw [List.cons_append, decode, decode, if_neg harrived.not_gt, if_neg harrived'.not_gt,
      List.take_append_of_le_length harrived, List.drop_append_of_le_length harrived]
    split <;> rfl

end Sys2Proof

namespace Sys2Proof.Machine

variable {s t : State}

theorem step_of_untaken (h : s.taking = .untaken) : step s = .next s := if_pos (responseStands_iff.2 h)

/-- No response stands, and `fetch` gives an illegal command: the step answers it. -/
theorem step_of_illegal {why : Illegal} {rest : List Word} (hfree : s.taking ≠ .untaken)
    (hill : decode s.cmdIn = .illegal why rest) :
    step s = .next (respond (.err .illegalCommand none) (consumed rest s)) := by
  have hstands : ¬ responseStands s = true := mt responseStands_iff.1 hfree
  have hfetch : fetch s = .illegal why rest := hill
  rw [step, if_neg hstands, hfetch]
  rfl

/-- A write and the host's sending concern different fields. -/
theorem Effect.apply_hostSend (e : Effect) (ws : List Word) (s : State) :
    e.apply (hostSend ws s) = hostSend ws (e.apply s) := by
  cases e with
  | vector sel v => cases sel <;> rfl
  | _ => rfl

/-- No command reads the command port (R53). -/
theorem exec_hostSend {i : Instr} (ws : List Word) (h : exec i s = .next t) :
    exec i (hostSend ws s) = .next (hostSend ws t) := by
  have hreads : SameReads s (hostSend ws s) := ⟨rfl, rfl, rfl, rfl, fun _ => rfl⟩
  obtain ⟨r, e, hrun, hrun'⟩ := exec_alike hreads i
  cases hrun.symm.trans h
  rw [hrun', e.apply_hostSend]
  rfl

/-- Settles O11, along what a step can do: the same case applies with the later words behind. -/
theorem laterWordsDoNotDisturb : Obligations.LaterWordsDoNotDisturb := by
  intro s t ws hcomplete h
  have hdecode : decode (hostSend ws s).cmdIn = (decode s.cmdIn).followedBy ws := decode_append hcomplete ws
  obtain ⟨huntaken | hincomplete, rfl⟩ | ⟨hfree, why, rest, hill, rfl⟩ | ⟨hfree, i, rest, hcmd, hexec⟩ := step_cases h
  · exact step_of_untaken huntaken
  · exact absurd hincomplete hcomplete
  · rw [hill] at hdecode
    exact step_of_illegal hfree hdecode
  · rw [hcmd] at hdecode
    calc step (hostSend ws s) = exec i (hostSend ws (consumed rest s)) := step_of_command hfree hdecode
      _ = .next (hostSend ws t) := exec_hostSend ws hexec

end Sys2Proof.Machine
end

section
/-! PROOFS. The byte view of the packed words (spec/20_memory.md R42, spec/43_packed_serializer.md R138). -/

namespace Sys2Proof.Machine

/-- In a list of blocks of one length `n`, entry `n * q + j` is entry `j` of block `q`. -/
theorem flatMap_getElem?_of_length {α β : Type} {f : α → List β} {n : Nat} (hlen : ∀ x, (f x).length = n)
    (l : List α) (q : Nat) {j : Nat} (hj : j < n) : (l.flatMap f)[n * q + j]? = l[q]?.bind fun x => (f x)[j]? := by
  induction l generalizing q with
  | nil => simp
  | cons x xs ih =>
    rw [List.flatMap_cons]
    cases q with
    | zero => rw [Nat.mul_zero, Nat.zero_add, List.getElem?_append_left (by rwa [hlen])]; rfl
    | succ q =>
      have hindex : n * (q + 1) + j - (f x).length = n * q + j := by rw [hlen, Nat.mul_succ]; omega
      rw [List.getElem?_append_right (by rw [hlen, Nat.mul_succ]; omega), hindex, ih q, List.getElem?_cons_succ]

@[simp] theorem wordBytes_length (w : Word) : (wordBytes w).length = 8 := rfl

theorem wordBytes_getElem? (w : Word) {j : Nat} (hj : j < 8) : (wordBytes w)[j]? = some (w.extractLsb' (8 * j) 8) := by
  simp [wordBytes, hj]

theorem packBytes_length (v : BoolVec) : (packBytes v).length = 8 * ((v.length + 63) / 64) := by
  simp [packBytes, List.length_flatMap, ceilDiv, Nat.mul_comm]

/-- A byte of the view lies in word `m / 8`, from bit `8 * (m % 8)` on. -/
theorem packBytes_getElem?_eq_some {v : BoolVec} {m : Nat} {byte : Byte} (h : (packBytes v)[m]? = some byte) :
    byte = (packWord v (m / 8)).extractLsb' (8 * (m % 8)) 8 := by
  have hj : m % 8 < 8 := Nat.mod_lt _ (by decide)
  rw [← Nat.div_add_mod m 8, packBytes, flatMap_getElem?_of_length wordBytes_length _ _ hj, pack_getElem?] at h
  split at h
  · rw [Option.bind_some, wordBytes_getElem? _ hj] at h
    exact (Option.some.inj h).symm
  · cases h

/-- Settles O42: bit `b` of byte `m` is bit `8 * (m % 8) + b` of word `m / 8`. -/
theorem packedBytesAreLittleEndian : Obligations.PackedBytesAreLittleEndian := by
  refine fun v => ⟨packBytes_length v, fun m b byte h hb => ?_⟩
  have hbit : 8 * (m % 8) + b < 64 := by omega
  have helement : 64 * (m / 8) + (8 * (m % 8) + b) = 8 * m + b := by omega
  calc byte.getLsbD b = (packWord v (m / 8)).getLsbD (8 * (m % 8) + b) := by
        simp [packBytes_getElem?_eq_some h, hb]
    _ = v.getD (8 * m + b) false := by rw [packWord_getLsbD _ _ _ hbit, helement]

end Sys2Proof.Machine
end

section
/-! PROOFS. The layout of the image (spec/44_raster_encoder.md R155 to R165). -/

namespace Sys2Proof.Machine

theorem be32_toNat (n : Nat) :
    (be32 n).map BitVec.toNat = [n / 2 ^ 24 % 256, n / 2 ^ 16 % 256, n / 2 ^ 8 % 256, n % 256] := by
  simp [be32]

/-- The signature and the header chunk (R156, R161), which the compressor has no part in. -/
def imageHead (g : Grid) : List Byte := signature ++ chunk tagIHDR (header g.w g.h)

@[simp] theorem imageHead_length (g : Grid) : (imageHead g).length = 33 := rfl

theorem imageHead_bytes (g : Grid) : imageHead g =
    [0x89, 0x50, 0x4E, 0x47, 0x0D, 0x0A, 0x1A, 0x0A] ++ [0x00, 0x00, 0x00, 0x0D, 0x49, 0x48, 0x44, 0x52] ++
      be32 g.w ++ be32 g.h ++ [0x01, 0x00, 0x00, 0x00, 0x00] ++
      be32 (crc32 ([0x49, 0x48, 0x44, 0x52] ++ be32 g.w ++ be32 g.h ++ [0x01, 0x00, 0x00, 0x00, 0x00])).toNat := by
  have hlength : be32 13 = [0x00, 0x00, 0x00, 0x0D] := by decide
  rw [imageHead, chunk, header_length, hlength]
  simp only [header, List.append_assoc]
  rfl

/-- The end chunk is the same 12 bytes in every image (R165). -/
theorem chunk_tagIEND :
    chunk tagIEND [] = [0x00, 0x00, 0x00, 0x00, 0x49, 0x45, 0x4E, 0x44, 0xAE, 0x42, 0x60, 0x82] := by
  decide +kernel

section

variable (c : Compressor) (g : Grid)

/-- The head, then length and tag, data and CRC of the data chunk, then the end chunk (R155, R157, R164). -/
theorem encodeGrid_fields : encodeGrid c g =
    imageHead g ++ ((be32 (compress c (raw g)).length ++ tagIDAT) ++
      (compress c (raw g) ++ (be32 (crc32 (tagIDAT ++ compress c (raw g))).toNat ++ chunk tagIEND []))) := by
  simp only [encodeGrid, imageHead, chunk, List.append_assoc]

theorem encodeGrid_take_head : (encodeGrid c g).take 33 = imageHead g := by
  rw [encodeGrid_fields]
  exact List.take_left' (imageHead_length g)

theorem encodeGrid_drop_head : (encodeGrid c g).drop 33 = (be32 (compress c (raw g)).length ++ tagIDAT) ++
    (compress c (raw g) ++ (be32 (crc32 (tagIDAT ++ compress c (raw g))).toNat ++ chunk tagIEND [])) := by
  rw [encodeGrid_fields]
  exact List.drop_left' (imageHead_length g)

theorem encodeGrid_drop_tag : (encodeGrid c g).drop 41 =
    compress c (raw g) ++ (be32 (crc32 (tagIDAT ++ compress c (raw g))).toNat ++ chunk tagIEND []) := by
  rw [← List.drop_drop (i := 8) (j := 33), encodeGrid_drop_head]
  exact List.drop_left' rfl

theorem encodeGrid_drop_data : (encodeGrid c g).drop (41 + (compress c (raw g)).length) =
    be32 (crc32 (tagIDAT ++ compress c (raw g))).toNat ++ chunk tagIEND [] := by
  rw [← List.drop_drop, encodeGrid_drop_tag]
  exact List.drop_left' rfl

theorem encodeGrid_drop_crc :
    (encodeGrid c g).drop (45 + (compress c (raw g)).length) = chunk tagIEND [] := by
  rw [show 45 + (compress c (raw g)).length = 41 + (compress c (raw g)).length + 4 by omega, ← List.drop_drop,
    encodeGrid_drop_data]
  exact List.drop_left' rfl

end

/-- Settles O52, field by field: each stands first in what is left once the fields before it are dropped. -/
theorem encodedFixedBytes : Obligations.EncodedFixedBytes := by
  refine ⟨be32_toNat, fun c c' g => ⟨?_, ?_, ?_, ?_, ?_, ?_⟩⟩
  · rw [encodeGrid_take_head, encodeGrid_take_head]
  · rw [encodeGrid_take_head, imageHead_bytes]
  · rw [encodeGrid_drop_head]
    exact List.take_left' rfl
  · rw [encodeGrid_drop_tag]
    exact List.take_left' rfl
  · rw [encodeGrid_drop_data]
    exact List.take_left' rfl
  · rw [encodeGrid_drop_crc, chunk_tagIEND]

end Sys2Proof.Machine
end

section
/-! PROOFS. The header word as its fields (spec/30_encoding.md R61), and the two ways to select a row of the opcode
table from it: the tests of R64 in their order, and the row's match and mask words (R65). -/

namespace Sys2Proof

/-- The header bits [11:8], each an optional field of a row (R61). -/
structure Flags where
  sel : Bool
  val : Bool
  pol : Bool
  flip : Bool

/-- A header word from its fields, most significant first (R61). -/
def headerLayout (reserved : BitVec 48) (count : BitVec 4) (f : Flags) (opcode : Byte) : Word :=
  reserved ++ count ++ BitVec.ofBool f.flip ++ BitVec.ofBool f.pol ++ BitVec.ofBool f.val ++ BitVec.ofBool f.sel ++
    opcode

/-- The flag bits of a header word. -/
def Flags.ofHeader (h : Word) : Flags := ⟨h.getLsbD 8, h.getLsbD 9, h.getLsbD 10, h.getLsbD 11⟩

section

variable (reserved : BitVec 48) (count : BitVec 4) (f : Flags) (opcode : Byte)

theorem headerLayout_getLsbD (i : Nat) :
    (headerLayout reserved count f opcode).getLsbD i =
      if i < 8 then opcode.getLsbD i else if i = 8 then f.sel else if i = 9 then f.val else if i = 10 then f.pol
      else if i = 11 then f.flip else if i < 16 then count.getLsbD (i - 12) else reserved.getLsbD (i - 16) := by
  change BitVec.getLsbD (w := 48 + 4 + 1 + 1 + 1 + 1 + 8) (_ ++ _ ++ _ ++ _ ++ _ ++ _ ++ _) i = _
  simp only [BitVec.getLsbD_append, BitVec.getLsbD_ofBool]
  obtain hlow | rfl | rfl | rfl | rfl | hcount | hreserved :
      i < 8 ∨ i = 8 ∨ i = 9 ∨ i = 10 ∨ i = 11 ∨ (12 ≤ i ∧ i < 16) ∨ 16 ≤ i := by omega
  · rw [if_pos hlow, if_pos hlow]
  · rfl
  · rfl
  · rfl
  · rfl
  · grind
  · grind

@[simp] theorem opcodeField_headerLayout : Decode.opcodeField (headerLayout reserved count f opcode) = opcode := by
  apply BitVec.eq_of_getLsbD_eq
  intro i hi
  simp [Decode.opcodeField, headerLayout_getLsbD, hi]

@[simp] theorem countField_headerLayout : (headerLayout reserved count f opcode).extractLsb' 12 4 = count := by
  apply BitVec.eq_of_getLsbD_eq
  intro i hi
  simp only [BitVec.getLsbD_extractLsb', headerLayout_getLsbD]
  grind

@[simp] theorem nopsField_headerLayout : Decode.nopsField (headerLayout reserved count f opcode) = count.toNat := by
  rw [Decode.nopsField, countField_headerLayout]

@[simp] theorem reservedField_headerLayout :
    Decode.reservedField (headerLayout reserved count f opcode) = reserved := by
  apply BitVec.eq_of_getLsbD_eq
  intro i hi
  simp only [Decode.reservedField, BitVec.getLsbD_extractLsb', headerLayout_getLsbD]
  grind

@[simp] theorem ofHeader_headerLayout : Flags.ofHeader (headerLayout reserved count f opcode) = f := by
  simp only [Flags.ofHeader, headerLayout_getLsbD]
  rfl

end

/-- A header word is nothing but its fields. -/
theorem headerLayout_fields (h : Word) :
    headerLayout (Decode.reservedField h) (h.extractLsb' 12 4) (.ofHeader h) (Decode.opcodeField h) = h := by
  apply BitVec.eq_of_getLsbD_eq
  intro i hi
  simp only [Decode.reservedField, Decode.opcodeField, Flags.ofHeader, BitVec.getLsbD_extractLsb',
    headerLayout_getLsbD]
  grind

/-- Masking works field by field. -/
theorem headerLayout_and (r r' : BitVec 48) (n n' : BitVec 4) (f f' : Flags) (b b' : Byte) :
    headerLayout r n f b &&& headerLayout r' n' f' b' =
      headerLayout (r &&& r') (n &&& n')
        ⟨f.sel && f'.sel, f.val && f'.val, f.pol && f'.pol, f.flip && f'.flip⟩ (b &&& b') := by
  apply BitVec.eq_of_getLsbD_eq
  intro i _
  simp only [BitVec.getLsbD_and, headerLayout_getLsbD]
  split_ifs <;> rfl

theorem headerLayout_inj {r r' : BitVec 48} {n n' : BitVec 4} {f f' : Flags} {b b' : Byte} :
    headerLayout r n f b = headerLayout r' n' f' b' ↔ r = r' ∧ n = n' ∧ f = f' ∧ b = b' := by
  refine ⟨fun h => ⟨?_, ?_, ?_, ?_⟩, fun ⟨hr, hn, hf, hb⟩ => by rw [hr, hn, hf, hb]⟩
  · simpa using congrArg Decode.reservedField h
  · simpa using congrArg (·.extractLsb' 12 4) h
  · simpa using congrArg Flags.ofHeader h
  · simpa using congrArg Decode.opcodeField h

/-- The header of a row with these flags (R65). -/
def rowHeader (op : Opcode) (f : Flags) : Word :=
  headerLayout 0 (BitVec.ofNat 4 (Decode.nops op)) f (Decode.opcodeNumber op)

theorem nops_lt (op : Opcode) : Decode.nops op < 2 ^ 4 := by cases op <;> decide

theorem matchWord_eq (op : Opcode) : Decode.matchWord op = rowHeader op ⟨false, false, false, false⟩ := by
  cases op <;> decide

/-- A mask leaves out the flags its row uses. -/
theorem maskWord_eq (op : Opcode) : Decode.maskWord op = headerLayout (BitVec.allOnes 48) (BitVec.allOnes 4)
    ⟨!Decode.usesSel op, !Decode.usesVal op, !Decode.usesPol op, !Decode.usesFlip op⟩ (BitVec.allOnes 8) := by
  cases op <;> decide

/-- A header of a row, by the tests of R64. -/
structure IsHeaderOf (op : Opcode) (h : Word) : Prop where
  opcode : Decode.opcodeField h = Decode.opcodeNumber op
  count : Decode.nopsField h = Decode.nops op
  reserved : Decode.reservedField h = 0
  flags : Decode.unusedFieldSet op h = false

theorem IsHeaderOf.eq_rowHeader {op : Opcode} {h : Word} (hh : IsHeaderOf op h) :
    h = rowHeader op (.ofHeader h) := by
  have hcount : h.extractLsb' 12 4 = BitVec.ofNat 4 (Decode.nops op) := by
    rw [← hh.count, Decode.nopsField, BitVec.ofNat_toNat, BitVec.setWidth_eq]
  conv_lhs => rw [← headerLayout_fields h, hh.opcode, hh.reserved, hcount]
  rfl

theorem unusedFieldSet_eq_false {op : Opcode} {h : Word} :
    Decode.unusedFieldSet op h = false ↔
      Flags.mk (h.getLsbD 8 && !Decode.usesSel op) (h.getLsbD 9 && !Decode.usesVal op)
        (h.getLsbD 10 && !Decode.usesPol op) (h.getLsbD 11 && !Decode.usesFlip op) =
      ⟨false, false, false, false⟩ := by
  simp only [Decode.unusedFieldSet, Flags.mk.injEq, Bool.or_eq_false_iff, and_assoc, Bool.and_comm (h.getLsbD _)]

theorem isHeaderOf_iff_fields {op : Opcode} {h : Word} : IsHeaderOf op h ↔
    Decode.opcodeField h = Decode.opcodeNumber op ∧ Decode.nopsField h = Decode.nops op ∧
      Decode.reservedField h = 0 ∧ Decode.unusedFieldSet op h = false :=
  ⟨fun hh => ⟨hh.opcode, hh.count, hh.reserved, hh.flags⟩, fun ⟨ho, hc, hr, hf⟩ => ⟨ho, hc, hr, hf⟩⟩

/-- Match and mask select a row by the tests of R64. -/
theorem and_maskWord_eq_iff {op : Opcode} {h : Word} :
    h &&& Decode.maskWord op = Decode.matchWord op ↔ IsHeaderOf op h := by
  have hcount : h.extractLsb' 12 4 = BitVec.ofNat 4 (Decode.nops op) ↔ Decode.nopsField h = Decode.nops op := by
    rw [← BitVec.toNat_inj, BitVec.toNat_ofNat, Nat.mod_eq_of_lt (nops_lt op), Decode.nopsField]
  conv_lhs => lhs; rw [← headerLayout_fields h]
  rw [isHeaderOf_iff_fields, unusedFieldSet_eq_false, ← hcount, maskWord_eq, matchWord_eq, rowHeader,
    headerLayout_and, headerLayout_inj]
  simp only [BitVec.and_allOnes, Flags.ofHeader]
  tauto

theorem findOpcode_eq_some {b : Byte} {op : Opcode} :
    Decode.findOpcode b = some op ↔ b = Decode.opcodeNumber op := by
  constructor
  · intro h
    have hfound := List.find?_some (p := fun op => Decode.opcodeNumber op == b) h
    exact (beq_iff_eq.1 hfound).symm
  · rintro rfl
    cases op <;> rfl

/-- The tests of R64 let a header of a row through, and nothing else. -/
theorem checkHeader_eq_ok {h : Word} {op : Opcode} : Decode.checkHeader h = .ok op ↔ IsHeaderOf op h := by
  constructor
  · intro hok
    unfold Decode.checkHeader at hok
    split at hok
    · cases hok
    · rename_i op' hfind
      split_ifs at hok with hcount hreserved hflags
      cases hok
      exact ⟨findOpcode_eq_some.1 hfind, not_not.1 hcount, not_not.1 hreserved, by simpa using hflags⟩
  · intro hh
    simp [Decode.checkHeader, findOpcode_eq_some.2 hh.opcode, hh.count, hh.reserved, hh.flags]

theorem decode_of_short {h : Word} {ws : List Word} (hshort : ws.length < Decode.nopsField h) :
    decode (h :: ws) = .incomplete := if_pos hshort

/-- No row's header, and its operand words have come: the command is illegal (R66). -/
theorem decode_of_no_row {h : Word} {ws : List Word} (hlen : Decode.nopsField h ≤ ws.length)
    (hno : ∀ op, ¬ IsHeaderOf op h) : ∃ why, decode (h :: ws) = .illegal why (ws.drop (Decode.nopsField h)) := by
  rw [decode, if_neg hlen.not_gt]
  cases hcheck : Decode.checkHeader h with
  | error why => exact ⟨why, rfl⟩
  | ok op => exact absurd (checkHeader_eq_ok.1 hcheck) (hno op)

/-- A row's header, and its operand words have come: the command is the row's. -/
theorem decode_of_isHeaderOf {op : Opcode} {h : Word} {ws : List Word} (hlen : Decode.nopsField h ≤ ws.length)
    (hh : IsHeaderOf op h) : decode (h :: ws) =
      .command (Decode.build op h (ws.take (Decode.nopsField h))) (ws.drop (Decode.nopsField h)) := by
  rw [decode, if_neg hlen.not_gt, checkHeader_eq_ok.2 hh]

/-- A decoded command comes from a row's header with all its operand words. -/
theorem decode_eq_command {ws rest : List Word} {i : Instr} (hcmd : decode ws = .command i rest) :
    ∃ op h ops, IsHeaderOf op h ∧ ops.length = Decode.nops op ∧ i = Decode.build op h ops ∧
      ws = h :: (ops ++ rest) := by
  cases ws with
  | nil => cases hcmd
  | cons h ws =>
    by_cases hlen : Decode.nopsField h ≤ ws.length
    · cases hcheck : Decode.checkHeader h with
      | error why => simp [decode, hlen.not_gt, hcheck] at hcmd
      | ok op =>
        have hh := checkHeader_eq_ok.1 hcheck
        rw [decode_of_isHeaderOf hlen hh] at hcmd
        cases hcmd
        exact ⟨op, h, _, hh, by rw [List.length_take, Nat.min_eq_left hlen, hh.count], rfl,
          by rw [List.take_append_drop]⟩
    · rw [decode_of_short (Nat.lt_of_not_le hlen)] at hcmd
      cases hcmd

/-- Settles O4: both ways to select a row are `IsHeaderOf`, which fixes the row by its opcode. -/
theorem decodeFollowsMatchAndMask : Obligations.DecodeFollowsMatchAndMask := by
  refine ⟨fun h op op' hop hop' => ?_, fun h ws => ⟨Decode.nopsField h, rfl, decode_of_short, ?_, ?_⟩⟩
  · rw [and_maskWord_eq_iff] at hop hop'
    exact Option.some.inj ((findOpcode_eq_some.2 hop.opcode).symm.trans (findOpcode_eq_some.2 hop'.opcode))
  · exact fun hlen hno => decode_of_no_row hlen fun op hh => hno op (and_maskWord_eq_iff.2 hh)
  · exact fun hlen op hop => decode_of_isHeaderOf hlen (and_maskWord_eq_iff.1 hop)

end Sys2Proof
end

section
/-! PROOFS. The encoder and the decoder agree (spec/30_encoding.md R61 to R65, R74). -/

namespace Sys2Proof

/-- The flags of a command: those its row uses hold its fields, the others are clear. -/
def Flags.ofInstr : Instr → Flags
  | .bvnew sel _ val => ⟨decide (sel = .rows), val, false, false⟩
  | .bvset sel _ _ _ val => ⟨decide (sel = .rows), val, false, false⟩
  | .bvget sel _ => ⟨decide (sel = .rows), false, false, false⟩
  | .bvpack sel => ⟨decide (sel = .rows), false, false, false⟩
  | .apmnew _ _ val => ⟨false, val, false, false⟩
  | .apmclr _ _ _ _ => ⟨false, false, false, false⟩
  | .emitcfg pol => ⟨false, false, decide (pol = .union), false⟩
  | .compose pol flip => ⟨false, false, decide (pol = .union), flip⟩
  | .encode => ⟨false, false, false, false⟩

/-- Combining works field by field. -/
theorem headerLayout_or (r r' : BitVec 48) (n n' : BitVec 4) (f f' : Flags) (b b' : Byte) :
    headerLayout r n f b ||| headerLayout r' n' f' b' =
      headerLayout (r ||| r') (n ||| n')
        ⟨f.sel || f'.sel, f.val || f'.val, f.pol || f'.pol, f.flip || f'.flip⟩ (b ||| b') := by
  apply BitVec.eq_of_getLsbD_eq
  intro i _
  simp only [BitVec.getLsbD_or, headerLayout_getLsbD]
  split_ifs <;> rfl

theorem selBit_eq (sel : Sel) :
    Encode.selBit sel = headerLayout 0 0 ⟨decide (sel = .rows), false, false, false⟩ 0 := by
  cases sel <;> decide

theorem valBit_eq (val : Bool) : Encode.valBit val = headerLayout 0 0 ⟨false, val, false, false⟩ 0 := by
  cases val <;> decide

theorem polBit_eq (pol : Policy) :
    Encode.polBit pol = headerLayout 0 0 ⟨false, false, decide (pol = .union), false⟩ 0 := by
  cases pol <;> decide

theorem flipBit_eq (flip : Bool) : Encode.flipBit flip = headerLayout 0 0 ⟨false, false, false, flip⟩ 0 := by
  cases flip <;> decide

/-- The encoder's header is the row's header with the command's flags. -/
theorem headerWord_eq (i : Instr) : headerWord i = rowHeader (opcodeOf i) (.ofInstr i) := by
  cases i <;>
    simp [headerWord, matchWord_eq, rowHeader, selBit_eq, valBit_eq, polBit_eq, flipBit_eq, headerLayout_or,
      Flags.ofInstr]

theorem unusedFieldSet_rowHeader (op : Opcode) (f : Flags) : Decode.unusedFieldSet op (rowHeader op f) =
    ((!Decode.usesSel op && f.sel) || (!Decode.usesVal op && f.val) || (!Decode.usesPol op && f.pol) ||
      (!Decode.usesFlip op && f.flip)) :=
  congrArg (fun f : Flags => (!Decode.usesSel op && f.sel) || (!Decode.usesVal op && f.val) ||
    (!Decode.usesPol op && f.pol) || (!Decode.usesFlip op && f.flip)) (ofHeader_headerLayout ..)

theorem unusedFieldSet_headerWord (i : Instr) : Decode.unusedFieldSet (opcodeOf i) (headerWord i) = false := by
  rw [headerWord_eq, unusedFieldSet_rowHeader]
  cases i <;> rfl

theorem isHeaderOf_headerWord (i : Instr) : IsHeaderOf (opcodeOf i) (headerWord i) where
  opcode := by rw [headerWord_eq, rowHeader, opcodeField_headerLayout]
  count := by
    rw [headerWord_eq, rowHeader, nopsField_headerLayout, BitVec.toNat_ofNat, Nat.mod_eq_of_lt (nops_lt _)]
  reserved := by rw [headerWord_eq, rowHeader, reservedField_headerLayout]
  flags := unusedFieldSet_headerWord i

theorem operandWords_length (i : Instr) : (operandWords i).length = Decode.nops (opcodeOf i) := by
  cases i <;> rfl

theorem operand_operandWord {ops : List Word} {n j : Nat} (hn : FitsWord n)
    (hj : ops[j]? = some (Encode.operandWord n)) : Decode.operand ops j = n := by
  rw [Decode.operand, List.getD_eq_getElem?_getD, hj]
  exact (BitVec.toNat_ofNat ..).trans (Nat.mod_eq_of_lt hn)

theorem selField_rowHeader (op : Opcode) (sel : Sel) (val pol flip : Bool) :
    Decode.selField (rowHeader op ⟨decide (sel = .rows), val, pol, flip⟩) = sel := by
  have hbit : (rowHeader op ⟨decide (sel = .rows), val, pol, flip⟩).getLsbD 8 = decide (sel = .rows) :=
    congrArg Flags.sel (ofHeader_headerLayout ..)
  rw [Decode.selField, hbit]
  cases sel <;> rfl

theorem polField_rowHeader (op : Opcode) (pol : Policy) (sel val flip : Bool) :
    Decode.polField (rowHeader op ⟨sel, val, decide (pol = .union), flip⟩) = pol := by
  have hbit : (rowHeader op ⟨sel, val, decide (pol = .union), flip⟩).getLsbD 10 = decide (pol = .union) :=
    congrArg Flags.pol (ofHeader_headerLayout ..)
  rw [Decode.polField, hbit]
  cases pol <;> rfl

theorem valField_rowHeader (op : Opcode) (f : Flags) : Decode.valField (rowHeader op f) = f.val :=
  congrArg Flags.val (ofHeader_headerLayout ..)

theorem flipField_rowHeader (op : Opcode) (f : Flags) : Decode.flipField (rowHeader op f) = f.flip :=
  congrArg Flags.flip (ofHeader_headerLayout ..)

/-- The row's command, from the words the encoder wrote, is the command it wrote them for. -/
theorem build_encode {i : Instr} (hwf : WellFormed i) :
    Decode.build (opcodeOf i) (headerWord i) (operandWords i) = i := by
  rw [headerWord_eq]
  cases i with
  | bvnew sel n val =>
    rw [opcodeOf, Decode.build, Flags.ofInstr, selField_rowHeader, valField_rowHeader, operand_operandWord hwf rfl]
  | bvset sel a b k val =>
    obtain ⟨ha, hb, hk⟩ := hwf
    rw [opcodeOf, Decode.build, Flags.ofInstr, selField_rowHeader, valField_rowHeader, operand_operandWord ha rfl,
      operand_operandWord hb rfl, operand_operandWord hk rfl]
  | bvget sel j => rw [opcodeOf, Decode.build, Flags.ofInstr, selField_rowHeader, operand_operandWord hwf rfl]
  | bvpack sel => rw [opcodeOf, Decode.build, Flags.ofInstr, selField_rowHeader]
  | apmnew w h val =>
    obtain ⟨hw, hh⟩ := hwf
    rw [opcodeOf, Decode.build, Flags.ofInstr, valField_rowHeader, operand_operandWord hw rfl, operand_operandWord hh rfl]
  | apmclr x y w h =>
    obtain ⟨hx, hy, hw, hh⟩ := hwf
    rw [opcodeOf, Decode.build, operand_operandWord hx rfl, operand_operandWord hy rfl,
      operand_operandWord hw rfl, operand_operandWord hh rfl]
  | emitcfg pol => rw [opcodeOf, Decode.build, Flags.ofInstr, polField_rowHeader]
  | compose pol flip => rw [opcodeOf, Decode.build, Flags.ofInstr, polField_rowHeader, flipField_rowHeader]
  | encode => rfl

/-- Settles O2: the header selects the command's row and counts its operand words. -/
theorem decodeEncodeRoundTrip : Obligations.DecodeEncodeRoundTrip := by
  intro i rest hwf
  have hh := isHeaderOf_headerWord i
  have hcount : Decode.nopsField (headerWord i) = (operandWords i).length := by rw [hh.count, operandWords_length]
  have hlen : Decode.nopsField (headerWord i) ≤ (operandWords i ++ rest).length := by
    rw [hcount, List.length_append]; omega
  rw [encode, List.cons_append, decode_of_isHeaderOf hlen hh, hcount, List.take_left, List.drop_left, build_encode hwf]

theorem opcodeOf_build (op : Opcode) (h : Word) (ops : List Word) : opcodeOf (Decode.build op h ops) = op := by
  cases op <;> rfl

/-- What the decoder reads from a header's flags is what the encoder puts there, where no unused field is set. -/
theorem ofInstr_build {op : Opcode} {h : Word} (hunused : Decode.unusedFieldSet op h = false) (ops : List Word) :
    Flags.ofInstr (Decode.build op h ops) = .ofHeader h := by
  have hsel : decide (Decode.selField h = .rows) = h.getLsbD 8 := by rw [Decode.selField]; split <;> simp_all
  have hpol : decide (Decode.polField h = .union) = h.getLsbD 10 := by rw [Decode.polField]; split <;> simp_all
  cases op <;>
    simp_all [Decode.unusedFieldSet, Decode.build, Flags.ofInstr, Flags.ofHeader, Decode.valField, Decode.flipField,
      Decode.usesSel, Decode.usesVal, Decode.usesPol, Decode.usesFlip]

theorem headerWord_build {op : Opcode} {h : Word} (hh : IsHeaderOf op h) (ops : List Word) :
    headerWord (Decode.build op h ops) = h := by
  rw [headerWord_eq, opcodeOf_build, ofInstr_build hh.flags, ← hh.eq_rowHeader]

theorem fitsWord_operand (ops : List Word) (j : Nat) : FitsWord (Decode.operand ops j) := BitVec.isLt _

theorem operandWord_operand (ops : List Word) (j : Nat) : Encode.operandWord (Decode.operand ops j) = ops.getD j 0 := by
  rw [Encode.operandWord, Decode.operand, BitVec.ofNat_toNat, BitVec.setWidth_eq]

theorem wellFormed_build (op : Opcode) (h : Word) (ops : List Word) : WellFormed (Decode.build op h ops) := by
  have hfits := fitsWord_operand ops
  cases op with
  | bvnew | bvget => exact hfits 0
  | bvset => exact ⟨hfits 0, hfits 1, hfits 2⟩
  | apmnew => exact ⟨hfits 0, hfits 1⟩
  | apmclr => exact ⟨hfits 0, hfits 1, hfits 2, hfits 3⟩
  | bvpack | emitcfg | compose | encode => trivial

theorem map_getD_range {ops : List Word} {n : Nat} (hlen : ops.length = n) :
    (List.range n).map (fun j => ops.getD j 0) = ops := by
  subst hlen
  exact List.ext_getElem (by simp) (by simp +contextual)

theorem operandWords_build {op : Opcode} (h : Word) {ops : List Word} (hlen : ops.length = Decode.nops op) :
    operandWords (Decode.build op h ops) = ops := by
  calc operandWords (Decode.build op h ops) = (List.range (Decode.nops op)).map (fun j => ops.getD j 0) := by
        cases op <;> simp [Decode.build, operandWords, operandWord_operand, Decode.nops, List.range_succ]
    _ = ops := map_getD_range hlen

/-- Settles O3: what the decoder consumed is a row's header and its operand words, which the encoder writes. -/
theorem decodedWordsAreTheEncoding : Obligations.DecodedWordsAreTheEncoding := by
  intro ws rest i hcmd
  obtain ⟨op, h, ops, hh, hlen, rfl, rfl⟩ := decode_eq_command hcmd
  refine ⟨wellFormed_build op h ops, ?_⟩
  rw [encode, headerWord_build hh, operandWords_build h hlen, List.cons_append]

/-- Settles O1, by running encoder and decoder on the eleven commands of R74. -/
theorem workedEncodingsAgree : Obligations.WorkedEncodingsAgree := by
  unfold Obligations.WorkedEncodingsAgree
  decide

end Sys2Proof
end

section
/-! PROOFS. One command, one response (spec/30_encoding.md R60, spec/70_reset_and_hazards.md R256, R257), and when the
block waits (R64). -/

namespace Sys2Proof.Machine

variable {s : State}

namespace Effect

variable (e : Effect) (s : State)

@[simp] theorem apply_cmdIn : (e.apply s).cmdIn = s.cmdIn := by cases e <;> simp

@[simp] theorem apply_taking : (e.apply s).taking = s.taking := by cases e <;> simp

end Effect

theorem RespTaking.emitted_eq (k : RespTaking) : k.emitted = if k = .prompt then .prompt else .untaken := by
  cases k <;> rfl

/-- Every command runs to a response, after one write at most. -/
theorem exec_total (i : Instr) (s : State) : ∃ r e, exec i s = .next (respond r (Effect.apply e s)) := by
  obtain ⟨r, e, hrun, -⟩ := exec_alike (s := s) ⟨rfl, rfl, rfl, rfl, fun _ => rfl⟩ i
  exact ⟨r, e, hrun⟩

theorem step_of_incomplete (h : decode s.cmdIn = .incomplete) : step s = .next s := by
  have hfetch : fetch s = .incomplete := h
  rw [step, hfetch]
  exact ite_self _

/-- A step waits, or it emits one response while none stands on the port. -/
theorem step_total (s : State) :
    ∃ t, step s = .next t ∧ (t = s ∨ s.taking ≠ .untaken ∧ ∃ r, t.respOut = s.respOut ++ [r]) := by
  by_cases huntaken : s.taking = .untaken
  · exact ⟨s, step_of_untaken huntaken, .inl rfl⟩
  · cases hdecode : decode s.cmdIn with
    | incomplete => exact ⟨s, step_of_incomplete hdecode, .inl rfl⟩
    | illegal why rest => exact ⟨_, step_of_illegal huntaken hdecode, .inr ⟨huntaken, _, rfl⟩⟩
    | command i rest =>
      obtain ⟨r, e, hrun⟩ := exec_total i (consumed rest s)
      exact ⟨_, (step_of_command huntaken hdecode).trans hrun, .inr ⟨huntaken, r, by simp⟩⟩

/-- Settles O12: what a command writes beside its response is on neither port. -/
theorem everyCommandAnswersOnce : Obligations.EveryCommandAnswersOnce := by
  refine ⟨fun i s => ?_, respond_eq, step_total⟩
  obtain ⟨r, e, hrun⟩ := exec_total i s
  exact ⟨_, r, hrun, by simp, by simp, by simp [RespTaking.emitted_eq]⟩

/-- Settles O10: the two conditions on which `step` waits, and what `hostTake` does to the second. -/
theorem incompleteCommandWaits : Obligations.IncompleteCommandWaits := by
  refine ⟨fun s hmissing => step_of_incomplete ?_, fun s huntaken => ?_⟩
  · obtain hnil | ⟨h, ws, hcons, hshort⟩ := hmissing
    · rw [hnil]; rfl
    · rw [hcons]; exact decode_of_short hshort
  · have htake : hostTake s = { s with taking := .free } := by rw [hostTake, huntaken]; rfl
    refine ⟨step_of_untaken huntaken, htake, fun i rest hcmd => ?_⟩
    have hfree : (hostTake s).taking ≠ .untaken := RespTaking.taken_ne_untaken _
    rw [step_of_command hfree hcmd, htake]
    rfl

end Sys2Proof.Machine
end

section
/-! PROOFS. What a command may answer, and the words of its answer (spec/30_encoding.md R68 to R70). -/

namespace Sys2Proof.Machine

variable {s t : State} {i : Instr} {r : Response}

/-- Which responses a command may give from a state. Only a failed write carries an `info` (R69). -/
inductive HasAnswer (s : State) : Instr → Response → Prop
  | empty {i : Instr} : HasAnswer s i (.ok .empty)
  | bool {sel : Sel} {j : Nat} {v : BoolVec} {b : Bool} (held : readV sel s = some v) (element : v[j]? = some b) :
      HasAnswer s (.bvget sel j) (.ok (.bool b))
  | words {sel : Sel} {v : BoolVec} (held : readV sel s = some v) : HasAnswer s (.bvpack sel) (.ok (.words (pack v)))
  | config {pol : Policy} {c r : BoolVec} (cols : s.cols = some c) (rows : s.rows = some r) :
      HasAnswer s (.emitcfg pol) (.ok (.config (pack c) (pack r) (pol == .intersection)))
  | count {n : Nat} : HasAnswer s .encode (.ok (.count n))
  | ioFailure {code : Word} : HasAnswer s .encode (.err .ioFailure (some code))
  | error {i : Instr} {k : ErrKind} (kind : k ≠ .ioFailure) : HasAnswer s i (.err k none)

theorem exec_answer (h : exec i s = .next t) : ∃ r, HasAnswer s i r ∧ t.respOut = s.respOut ++ [r] := by
  cases i with
  | bvnew sel n val =>
    obtain ⟨-, rfl⟩ | ⟨-, rfl⟩ := execBvnew_cases h
    · exact ⟨_, .empty, by simp⟩
    · exact ⟨_, .error (by decide), rfl⟩
  | bvset sel a b k val =>
    obtain ⟨-, rfl⟩ | ⟨v, -, ⟨-, rfl⟩ | ⟨-, -, rfl⟩ | ⟨v', -, -, rfl⟩⟩ := execBvset_cases h
    · exact ⟨_, .error (by decide), rfl⟩
    · exact ⟨_, .error (by decide), rfl⟩
    · exact ⟨_, .error (by decide), rfl⟩
    · exact ⟨_, .empty, by simp⟩
  | bvget sel j =>
    obtain ⟨-, rfl⟩ | ⟨v, hv, ⟨-, rfl⟩ | ⟨b, hb, rfl⟩⟩ := execBvget_cases h
    · exact ⟨_, .error (by decide), rfl⟩
    · exact ⟨_, .error (by decide), rfl⟩
    · exact ⟨_, .bool hv hb, rfl⟩
  | bvpack sel =>
    obtain ⟨-, rfl⟩ | ⟨v, hv, rfl⟩ := execBvpack_cases h
    · exact ⟨_, .error (by decide), rfl⟩
    · exact ⟨_, .words hv, rfl⟩
  | apmnew w h' val =>
    obtain ⟨-, -, rfl⟩ | ⟨-, rfl⟩ := execApmnew_cases h
    · exact ⟨_, .empty, rfl⟩
    · exact ⟨_, .error (by decide), rfl⟩
  | apmclr x y w h' =>
    obtain ⟨-, rfl⟩ | ⟨c, r, -, -, ⟨-, rfl⟩ | ⟨c', r', -, -, rfl⟩⟩ := execApmclr_cases h
    · exact ⟨_, .error (by decide), rfl⟩
    · exact ⟨_, .error (by decide), rfl⟩
    · exact ⟨_, .empty, rfl⟩
  | emitcfg pol =>
    obtain ⟨-, rfl⟩ | ⟨c, r, hc, hr, rfl⟩ := execEmitcfg_cases h
    · exact ⟨_, .error (by decide), rfl⟩
    · exact ⟨_, .config hc hr, rfl⟩
  | compose pol flip =>
    obtain ⟨-, rfl⟩ | ⟨c, r, -, -, rfl⟩ := execCompose_cases h
    · exact ⟨_, .error (by decide), rfl⟩
    · exact ⟨_, .empty, rfl⟩
  | encode =>
    obtain ⟨-, rfl⟩ | ⟨g, -, ⟨-, rfl⟩ | ⟨-, -, rfl⟩ | ⟨code, -, -, rfl⟩⟩ := execEncode_cases h
    · exact ⟨_, .error (by decide), rfl⟩
    · exact ⟨_, .error (by decide), rfl⟩
    · exact ⟨_, .count, rfl⟩
    · exact ⟨_, .ioFailure, rfl⟩

theorem hasAnswer_of_respOut (h : exec i s = .next t) (hr : t.respOut = s.respOut ++ [r]) : HasAnswer s i r := by
  obtain ⟨r', hanswer, hr'⟩ := exec_answer h
  cases List.append_cancel_left (hr.symm.trans hr')
  exact hanswer

section

variable (status : Byte) (npay : Nat)

theorem responseHeader_getLsbD (j : Nat) : (responseHeader status npay).getLsbD j =
    if j < 8 then status.getLsbD j else if j < 16 then false else (BitVec.ofNat 48 npay).getLsbD (j - 16) := by
  change BitVec.getLsbD (w := 48 + 8 + 8) (_ ++ _ ++ _) j = _
  simp only [BitVec.getLsbD_append]
  grind

theorem responseHeader_status : (responseHeader status npay).extractLsb' 0 8 = status := by
  apply BitVec.eq_of_getLsbD_eq
  intro j hj
  simp [responseHeader_getLsbD, hj]

theorem responseHeader_zero : (responseHeader status npay).extractLsb' 8 8 = 0 := by
  apply BitVec.eq_of_getLsbD_eq
  intro j hj
  simp only [BitVec.getLsbD_extractLsb', responseHeader_getLsbD]
  grind

theorem responseHeader_count : (responseHeader status npay).extractLsb' 16 48 = BitVec.ofNat 48 npay := by
  apply BitVec.eq_of_getLsbD_eq
  intro j hj
  simp only [BitVec.getLsbD_extractLsb', responseHeader_getLsbD]
  grind

end

theorem errCode_ne_zero (k : ErrKind) : errCode k ≠ 0 := by cases k <;> decide

theorem errCode_le (k : ErrKind) : (errCode k).toNat ≤ 6 := by cases k <;> decide

theorem statusCode_eq_zero : statusCode r = 0 ↔ ∃ p, r = .ok p := by
  cases r with
  | ok p => exact iff_of_true rfl ⟨p, rfl⟩
  | err k info => exact iff_of_false (errCode_ne_zero k) (by simp)

theorem statusCode_le (r : Response) : (statusCode r).toNat ≤ 6 := by
  cases r with
  | ok p => exact Nat.zero_le 6
  | err k info => exact errCode_le k

theorem responseWords_of_lt (h : (payloadWords r).length < 2 ^ 48) :
    responseWords r = responseHeader (statusCode r) (payloadWords r).length :: payloadWords r := if_pos h

/-- A response with `info` is that of a failed write (R69). -/
theorem HasAnswer.info_eq_none_iff {k : ErrKind} {info : Option Word} (h : HasAnswer s i (.err k info)) :
    info = none ↔ k ≠ .ioFailure := by
  cases h with
  | ioFailure => simp
  | error kind => simp [kind]

/-- Settles O5: the header's fields lie where R69 puts them, and the codes and payload words are those of the
definitions. -/
theorem responseHeaderFields : Obligations.ResponseHeaderFields := by
  refine ⟨fun r hlen => ⟨_, responseWords_of_lt hlen, ?_⟩, fun p info => ?_, fun b ws cw rw n k code => ?_, ?_⟩
  · rw [responseHeader_status, responseHeader_zero, responseHeader_count, BitVec.toNat_ofNat, Nat.mod_eq_of_lt hlen]
    exact ⟨rfl, rfl, rfl, statusCode_eq_zero, statusCode_le r⟩
  · exact ⟨rfl, rfl, rfl, rfl, rfl, rfl, rfl⟩
  · exact ⟨rfl, rfl, rfl, rfl, rfl, rfl, rfl⟩
  · exact fun i s t k info h hr => (hasAnswer_of_respOut h hr).info_eq_none_iff

/-- On vectors within the capacity the packed words need at most `2^47 - 2` words. -/
theorem State.Inv.pack_length_le {m : Nat} {sel : Sel} {v : BoolVec} (hs : s.Inv) (hmax : s.conf.maxLen = some m)
    (hm : m ≤ 2 ^ 53 - 128) (hv : readV sel s = some v) : (pack v).length ≤ 2 ^ 47 - 2 := by
  have hlen : v.length ≤ m := hs.vectors sel v hv m hmax
  rw [pack_length, ceilDiv]
  omega

/-- Settles O6: EMITCFG has the longest payload, two words before the words of both vectors. -/
theorem responsesFitTheirFraming : Obligations.ResponsesFitTheirFraming := by
  intro i s t m r hs hmax hm h hr
  have hpack : ∀ {sel v}, readV sel s = some v → (pack v).length ≤ 2 ^ 47 - 2 := hs.pack_length_le hmax hm
  cases hasAnswer_of_respOut h hr with
  | empty | bool | count | ioFailure | error => simp [payloadWords, okWords]
  | words held =>
    have hwords := hpack held
    simp only [payloadWords, okWords]
    omega
  | config cols rows =>
    have hcols := hpack (sel := .cols) cols
    have hrows := hpack (sel := .rows) rows
    simp only [payloadWords, okWords, List.length_cons, List.length_append]
    omega

end Sys2Proof.Machine
end

section
/-! PROOFS. The numbers of the assembler text (spec/30_encoding.md R72): the digits of a natural read back as it. -/

namespace Sys2Proof.Machine

theorem digitValue_digitChar {base d : Nat} (hbase : base ≤ 16) (hd : d < base) :
    digitValue base d.digitChar = some d := by
  have hd16 : d < 16 := hd.trans_le hbase
  interval_cases d <;> simp [digitValue, Nat.digitChar, hd]

theorem digitsValue_append (base acc : Nat) (t t' : List Char) :
    digitsValue base acc (t ++ t') = (digitsValue base acc t).bind fun n => digitsValue base n t' := by
  induction t generalizing acc with
  | nil => rfl
  | cons c cs ih =>
    rw [List.cons_append, digitsValue, digitsValue]
    cases digitValue base c with
    | none => rfl
    | some d => exact ih _

/-- Along the recursion of the digits: all but the last, then the last. -/
theorem digitsValue_toDigits {base : Nat} (hone : 1 < base) (hbase : base ≤ 16) (n : Nat) :
    digitsValue base 0 (Nat.toDigits base n) = some n := by
  induction n using Nat.strong_induction_on with
  | h n ih =>
    by_cases hn : n < base
    · simp [Nat.toDigits_of_lt_base hn, digitsValue, digitValue_digitChar hbase hn]
    · have hlast : n % base < base := Nat.mod_lt n (by omega)
      rw [Nat.toDigits_of_base_le hone (Nat.le_of_not_lt hn), digitsValue_append,
        ih (n / base) (Nat.div_lt_self (by omega) hone)]
      simp [digitsValue, digitValue_digitChar hbase hlast, Nat.div_add_mod]

theorem number_hex {t : List Char} {n : Nat} (ht : t ≠ []) (hval : digitsValue 16 0 t = some n) (hn : n < 2 ^ 64) :
    number ('0' :: 'x' :: t) = some n := by
  cases t with
  | nil => exact absurd rfl ht
  | cons c cs => simp only [number, hval, if_pos hn]

/-- A decimal text is not taken for a hexadecimal one, since `x` is no decimal digit. -/
theorem number_decimal {t : List Char} {n : Nat} (ht : t ≠ []) (hval : digitsValue 10 0 t = some n) (hn : n < 2 ^ 64) :
    number t = some n := by
  unfold number
  split
  · simp [digitsValue, digitValue] at hval
  · simp only [hval, if_pos hn]
  · exact absurd rfl ht

end Sys2Proof.Machine
end

section
/-! PROOFS. What a line of assembler text assembles to (spec/30_encoding.md R72, R73). -/

namespace Sys2Proof.Machine

/-- Every operand of an assembled command was read as a number, so it fits its word (R63). -/
theorem wellFormed_commandOf {m : Mnemonic} {ops : List (List Char)} {i : Instr} (h : commandOf m ops = some i) :
    WellFormed i := by
  unfold commandOf at h
  split at h <;>
    simp only [Option.bind_eq_bind, Option.bind_eq_some_iff, Option.pure_def, Option.some.injEq, reduceCtorEq] at h
  · obtain ⟨sel, -, n, hn, val, -, rfl⟩ := h
    exact number_lt hn
  · obtain ⟨sel, -, a, ha, b, hb, k, hk, val, -, rfl⟩ := h
    exact ⟨number_lt ha, number_lt hb, number_lt hk⟩
  · obtain ⟨sel, -, j, hj, rfl⟩ := h
    exact number_lt hj
  · obtain ⟨sel, -, rfl⟩ := h
    trivial
  · obtain ⟨w, hw, h', hh, val, -, rfl⟩ := h
    exact ⟨number_lt hw, number_lt hh⟩
  · obtain ⟨x, hx, y, hy, w, hw, h', hh, rfl⟩ := h
    exact ⟨number_lt hx, number_lt hy, number_lt hw, number_lt hh⟩
  · obtain ⟨pol, -, rfl⟩ := h
    trivial
  · obtain ⟨pol, -, flip, -, rfl⟩ := h
    trivial
  · subst h; trivial
  · subst h; trivial
  · subst h; trivial

theorem wellFormed_assembleLine {line : List Char} {i : Instr} (h : assembleLine line = some i) : WellFormed i := by
  unfold assembleLine at h
  dsimp only at h
  split at h
  · cases h
  · exact wellFormed_commandOf h

/-- The mnemonics of R72 and R73, in lower case. -/
def mnemonics : List String :=
  ["bvnew", "bvset", "bvget", "bvpack", "apmnew", "apmclr", "emitcfg", "compose", "encode", "colw", "roww"]

theorem plain_mnemonic : ∀ name ∈ mnemonics, Plain name.toList :=
  fun name hname => plain_of_all (by revert name; decide +kernel)

theorem plain_upper_mnemonic : ∀ name ∈ mnemonics, Plain (name.toList.map Char.toUpper) :=
  fun name hname => plain_of_all (by revert name; decide +kernel)

theorem mnemonicWord_upper : ∀ name ∈ mnemonics,
    mnemonicWord (name.toList.map Char.toUpper) = mnemonicWord name.toList := by
  decide +kernel

theorem trim_eq_rdropWhile (t : List Char) : trim t = (t.dropWhile Char.isWhitespace).rdropWhile Char.isWhitespace :=
  rfl

theorem Plain.stripComment_append {name : List Char} (hn : Plain name) (rest : List Char) :
    stripComment (name ++ rest) = name ++ stripComment rest :=
  List.takeWhile_append_of_pos fun c hc => by simpa using (hn.2 c hc).2.1

theorem Plain.trim_append {name : List Char} (hn : Plain name) (rest : List Char) :
    Machine.trim (name ++ rest) = name ++ rest.rdropWhile Char.isWhitespace := by
  have hfirst : (name ++ rest).dropWhile Char.isWhitespace = name ++ rest := dropWhile_head fun c hc => by
    rw [List.head?_append_of_ne_nil _ hn.1] at hc
    exact (hn.2 c (List.mem_of_mem_head? hc)).2.2
  have hlast : name.reverse.dropWhile Char.isWhitespace = name.reverse := dropWhile_head fun c hc =>
    (hn.2 c (List.mem_reverse.1 (List.mem_of_mem_head? hc))).2.2
  rw [trim_eq_rdropWhile, hfirst, List.rdropWhile, List.rdropWhile, List.reverse_append, List.dropWhile_append, hlast]
  split
  · rename_i hempty
    simp [List.isEmpty_iff.1 hempty]
  · simp

/-- The name of a line ends at white space or at the line's end. -/
theorem Plain.takeWhile_append {name rest : List Char} (hn : Plain name)
    (hrest : ∀ c ∈ rest.head?, c.isWhitespace = true) :
    (name ++ rest).takeWhile (fun c => !c.isWhitespace) = name := by
  rw [List.takeWhile_append_of_pos fun c hc => by simp [(hn.2 c hc).2.2]]
  cases rest with
  | nil => simp
  | cons c cs => simp [hrest c rfl]

/-- A line is read as the name it begins with and the operand fields of the rest. -/
theorem assembleLine_append {name rest : List Char} (hn : Plain name)
    (hrest : ∀ c ∈ rest.head?, c.isWhitespace = true) :
    assembleLine (name ++ rest) = (mnemonicWord name).bind fun m =>
      commandOf m (operandFields ((stripComment rest).rdropWhile Char.isWhitespace)) := by
  have hprefix : (stripComment rest).rdropWhile Char.isWhitespace <+: rest :=
    (List.rdropWhile_prefix _ _).trans (List.takeWhile_prefix _)
  have hrest' : ∀ c ∈ ((stripComment rest).rdropWhile Char.isWhitespace).head?, c.isWhitespace = true := by
    intro c hc
    obtain ⟨tail, htail⟩ := hprefix
    refine hrest c ?_
    rw [← htail, List.head?_append, hc]
    rfl
  unfold assembleLine
  simp only [hn.stripComment_append, hn.trim_append, hn.takeWhile_append hrest', List.drop_left]
  cases mnemonicWord name <;> rfl

theorem assembleLine_upper {name : String} (hname : name ∈ mnemonics) {rest : List Char}
    (hrest : rest = [] ∨ ∃ r, rest = ' ' :: r) :
    assembleLine (name.toList.map Char.toUpper ++ rest) = assembleLine (name.toList ++ rest) := by
  have hspace : ∀ c ∈ rest.head?, c.isWhitespace = true := by
    obtain rfl | ⟨r, rfl⟩ := hrest
    · simp
    · simp [show Char.isWhitespace ' ' = true by decide]
  rw [assembleLine_append (plain_upper_mnemonic name hname) hspace, mnemonicWord_upper name hname,
    assembleLine_append (plain_mnemonic name hname) hspace]

/-- A line that is a mnemonic alone. -/
theorem assembleLine_bare {name : String} (hname : name ∈ mnemonics) {m : Mnemonic}
    (hm : mnemonicWord name.toList = some m) : assembleLine name.toList = commandOf m [] := by
  have h := assembleLine_append (rest := []) (plain_mnemonic name hname) (by simp)
  rw [List.append_nil, hm] at h
  exact h

/-- A line that is a mnemonic and operand texts, in the form of R72. -/
theorem assembleLine_form {line : List Char} {name : String} {ts : List (List Char)} {m : Mnemonic}
    (hline : line = name.toList ++ ' ' :: operandText ts) (hname : name ∈ mnemonics)
    (hm : mnemonicWord name.toList = some m) (hne : ts ≠ []) (hp : ∀ t ∈ ts, Plain t) :
    assembleLine line = commandOf m ts := by
  rw [hline, assembleLine_operands (plain_mnemonic name hname) hne hp, hm]
  rfl

/-- The comment sign ends what is read of a line. -/
theorem assembleLine_comment (line comment : List Char) :
    assembleLine (line ++ '#' :: comment) = assembleLine line := by
  have hstrip : stripComment (line ++ '#' :: comment) = stripComment line := by
    induction line with
    | nil => rfl
    | cons c cs ih =>
      simp only [stripComment, List.cons_append, List.takeWhile_cons] at ih ⊢
      rw [ih]
  rw [assembleLine, assembleLine, hstrip]

/-- The text of a selector (R72). -/
def selText (sel : Sel) : List Char := (if sel = .rows then "rows" else "cols").toList

/-- The text of a fill value (R72). -/
def valText (val : Bool) : List Char := (if val then "true" else "false").toList

/-- The text of a policy (R72). -/
def polText (pol : Policy) : List Char := (if pol = .union then "union" else "intersection").toList

/-- The text of the flip (R72). -/
def flipText (flip : Bool) : List Char := (if flip then "flip" else "noflip").toList

theorem selWord_selText (sel : Sel) : selWord (selText sel) = some sel := by cases sel <;> rfl
theorem valWord_valText (val : Bool) : valWord (valText val) = some val := by cases val <;> rfl
theorem polWord_polText (pol : Policy) : polWord (polText pol) = some pol := by cases pol <;> rfl
theorem flipWord_flipText (flip : Bool) : flipWord (flipText flip) = some flip := by cases flip <;> rfl

theorem plain_selText (sel : Sel) : Plain (selText sel) := plain_of_all (by cases sel <;> decide +kernel)
theorem plain_valText (val : Bool) : Plain (valText val) := plain_of_all (by cases val <;> decide +kernel)
theorem plain_polText (pol : Policy) : Plain (polText pol) := plain_of_all (by cases pol <;> decide +kernel)
theorem plain_flipText (flip : Bool) : Plain (flipText flip) := plain_of_all (by cases flip <;> decide +kernel)

section

variable {ta tb tc td : List Char} {a b c d : Nat} (ha : number ta = some a) (hb : number tb = some b)
  (hc : number tc = some c) (hd : number td = some d)

include ha

theorem assembleLine_bvnew (sel : Sel) (val : Bool) :
    assembleLine ("bvnew ".toList ++ selText sel ++ ", ".toList ++ ta ++ ", ".toList ++ valText val) =
      some (.bvnew sel a val) := by
  have hp : ∀ t ∈ [selText sel, ta, valText val], Plain t := by
    simp [plain_selText, number_plain ha, plain_valText]
  rw [assembleLine_form (name := "bvnew") (by simp [operandText]) (by decide) rfl (by simp) hp]
  simp [commandOf, selWord_selText, ha, valWord_valText]

theorem assembleLine_bvget (sel : Sel) :
    assembleLine ("bvget ".toList ++ selText sel ++ ", ".toList ++ ta) = some (.bvget sel a) := by
  have hp : ∀ t ∈ [selText sel, ta], Plain t := by simp [plain_selText, number_plain ha]
  rw [assembleLine_form (name := "bvget") (by simp [operandText]) (by decide) rfl (by simp) hp]
  simp [commandOf, selWord_selText, ha]

include hb

theorem assembleLine_apmnew (val : Bool) :
    assembleLine ("apmnew ".toList ++ ta ++ ", ".toList ++ tb ++ ", ".toList ++ valText val) =
      some (.apmnew a b val) := by
  have hp : ∀ t ∈ [ta, tb, valText val], Plain t := by simp [number_plain ha, number_plain hb, plain_valText]
  rw [assembleLine_form (name := "apmnew") (by simp [operandText]) (by decide) rfl (by simp) hp]
  simp [commandOf, ha, hb, valWord_valText]

include hc

theorem assembleLine_bvset (sel : Sel) (val : Bool) :
    assembleLine ("bvset ".toList ++ selText sel ++ ", ".toList ++ ta ++ ", ".toList ++ tb ++ ", ".toList ++ tc ++
      ", ".toList ++ valText val) = some (.bvset sel a b c val) := by
  have hp : ∀ t ∈ [selText sel, ta, tb, tc, valText val], Plain t := by
    simp [plain_selText, number_plain ha, number_plain hb, number_plain hc, plain_valText]
  rw [assembleLine_form (name := "bvset") (by simp [operandText]) (by decide) rfl (by simp) hp]
  simp [commandOf, selWord_selText, ha, hb, hc, valWord_valText]

include hd

theorem assembleLine_apmclr :
    assembleLine ("apmclr ".toList ++ ta ++ ", ".toList ++ tb ++ ", ".toList ++ tc ++ ", ".toList ++ td) =
      some (.apmclr a b c d) := by
  have hp : ∀ t ∈ [ta, tb, tc, td], Plain t := by
    simp [number_plain ha, number_plain hb, number_plain hc, number_plain hd]
  rw [assembleLine_form (name := "apmclr") (by simp [operandText]) (by decide) rfl (by simp) hp]
  simp [commandOf, ha, hb, hc, hd]

end

theorem assembleLine_bvpack (sel : Sel) : assembleLine ("bvpack ".toList ++ selText sel) = some (.bvpack sel) := by
  have hp : ∀ t ∈ [selText sel], Plain t := by simp [plain_selText]
  rw [assembleLine_form (name := "bvpack") (by simp [operandText]) (by decide) rfl (by simp) hp]
  simp [commandOf, selWord_selText]

theorem assembleLine_emitcfg (pol : Policy) :
    assembleLine ("emitcfg ".toList ++ polText pol) = some (.emitcfg pol) := by
  have hp : ∀ t ∈ [polText pol], Plain t := by simp [plain_polText]
  rw [assembleLine_form (name := "emitcfg") (by simp [operandText]) (by decide) rfl (by simp) hp]
  simp [commandOf, polWord_polText]

theorem assembleLine_compose (pol : Policy) (flip : Bool) :
    assembleLine ("compose ".toList ++ polText pol ++ ", ".toList ++ flipText flip) = some (.compose pol flip) := by
  have hp : ∀ t ∈ [polText pol, flipText flip], Plain t := by simp [plain_polText, plain_flipText]
  rw [assembleLine_form (name := "compose") (by simp [operandText]) (by decide) rfl (by simp) hp]
  simp [commandOf, polWord_polText, flipWord_flipText]

/-- A line that assembles is not blank. -/
theorem trim_stripComment_ne_nil {line : List Char} {i : Instr} (h : assembleLine line = some i) :
    trim (stripComment line) ≠ [] := by
  intro hblank
  have hname : mnemonicWord [] = none := by rfl
  simp [assembleLine, hblank, hname] at h

theorem codeLines_cons {line : List Char} (text : List Char) (hline : '\n' ∉ line)
    (hcode : trim (stripComment line) ≠ []) : codeLines (line ++ '\n' :: text) = line :: codeLines text := by
  rw [codeLines, splitAt_append hline, List.filter_cons_of_pos (by simpa using hcode)]
  rfl

theorem assemble_cons {line text : List Char} {i : Instr} {is : List Instr} (hline : '\n' ∉ line)
    (hi : assembleLine line = some i) (his : assemble text = some is) :
    assemble (line ++ '\n' :: text) = some (i :: is) := by
  unfold assemble at his
  rw [assemble, codeLines_cons text hline (trim_stripComment_ne_nil hi), List.mapM_cons, hi, his]
  rfl

/-- Settles O7, clause by clause. -/
theorem assembledCommandsAreWellFormed : Obligations.AssembledCommandsAreWellFormed := by
  refine ⟨fun _ _ => wellFormed_assembleLine, fun n hn => ⟨?_, ?_⟩, ?_, ⟨?_, ?_, ?_⟩,
    fun name hname rest => assembleLine_upper hname, assembleLine_comment, rfl, ?_⟩
  · exact number_decimal Nat.toDigits_ne_nil (digitsValue_toDigits (by decide) (by decide) n) hn
  · exact number_hex Nat.toDigits_ne_nil (digitsValue_toDigits (by decide) (by decide) n) hn
  · intro ta tb tc td a b c d sel val flip pol ha hb hc hd
    exact ⟨assembleLine_bvnew ha sel val, assembleLine_bvset ha hb hc sel val, assembleLine_bvget ha sel,
      assembleLine_bvpack sel, assembleLine_apmnew ha hb val, assembleLine_apmclr ha hb hc hd,
      assembleLine_emitcfg pol, assembleLine_compose pol flip⟩
  · exact assembleLine_bare (name := "encode") (by decide) rfl
  · exact assembleLine_bare (name := "colw") (by decide) rfl
  · exact assembleLine_bare (name := "roww") (by decide) rfl
  · intro line text i is hline hi his
    have hassemble := assemble_cons hline hi his
    exact ⟨hassemble, by rw [assembleWords, hassemble]; rfl⟩

end Sys2Proof.Machine
end

section
/-! PROOFS. The visited set in closed form (spec/40_bitvector.md R90). -/

namespace Sys2Proof.Machine

variable {start stop step i : Nat}

theorem Visited.lt_stop (h : Visited start stop step i) : i < stop := by
  obtain ⟨j, -, hi⟩ := h
  exact hi

theorem Visited.start_le (h : Visited start stop step i) : start ≤ i := by
  obtain ⟨j, rfl, -⟩ := h
  exact Nat.le_add_right _ _

theorem visited_start (h : start < stop) : Visited start stop step start := ⟨0, by simp, h⟩

theorem not_visited_iff : (∀ i, ¬ Visited start stop step i) ↔ stop ≤ start :=
  ⟨fun h => not_lt.1 fun hlt => h start (visited_start hlt),
    fun hle _ hi => absurd (hi.start_le.trans_lt hi.lt_stop) hle.not_gt⟩

/-- The multiples of the stride that stay below `stop`, counted from the greatest one. -/
theorem add_mul_lt_iff_le_div (hstep : 1 ≤ step) (h : start < stop) {j : Nat} :
    start + j * step < stop ↔ j ≤ (stop - 1 - start) / step := by
  rw [Nat.le_div_iff_mul_le hstep]
  omega

/-- The same multiples, counted by how many there are. -/
theorem add_mul_lt_iff_lt_ceilDiv (hstep : 1 ≤ step) {j : Nat} :
    start + j * step < stop ↔ j < ceilDiv (stop - start) step := by
  rw [ceilDiv, Nat.lt_div_iff_mul_lt hstep]
  omega

theorem visited_lastVisited (hstep : 1 ≤ step) (h : start < stop) :
    Visited start stop step (lastVisited start stop step) :=
  ⟨_, rfl, (add_mul_lt_iff_le_div hstep h).2 le_rfl⟩

theorem Visited.le_lastVisited (hstep : 1 ≤ step) (h : Visited start stop step i) :
    i ≤ lastVisited start stop step := by
  have hne : start < stop := h.start_le.trans_lt h.lt_stop
  obtain ⟨j, rfl, hj⟩ := h
  have hle : j ≤ (stop - 1 - start) / step := (add_mul_lt_iff_le_div hstep hne).1 hj
  exact Nat.add_le_add_left (Nat.mul_le_mul_right step hle) start

/-- The test finds the first `ceilDiv (stop - start) step` members of the progression. -/
theorem filter_visits_perm (hstep : 1 ≤ step) : ((List.range stop).filter (visits start stop step)).Perm
    ((List.range (ceilDiv (stop - start) step)).map fun j => start + j * step) := by
  have hinj : Function.Injective fun j => start + j * step := fun j j' h =>
    Nat.eq_of_mul_eq_mul_right hstep (Nat.add_left_cancel h)
  refine (List.perm_ext_iff_of_nodup (List.nodup_range.filter _) (List.nodup_range.map hinj)).2 fun i => ?_
  simp only [List.mem_filter, List.mem_map, List.mem_range, visits_iff]
  constructor
  · rintro ⟨-, j, rfl, hj⟩
    exact ⟨j, (add_mul_lt_iff_lt_ceilDiv hstep).1 hj, rfl⟩
  · rintro ⟨j, hj, rfl⟩
    have hlt := (add_mul_lt_iff_lt_ceilDiv hstep).2 hj
    exact ⟨hlt, j, rfl, hlt⟩

/-- Settles O31, fact by fact. -/
theorem visitedClosedForm : Obligations.VisitedClosedForm := by
  intro start stop step hstep
  refine ⟨not_visited_iff, fun h => lt_irrefl _ h.lt_stop, fun hne => ⟨visited_start hne,
    visited_lastVisited hstep hne, fun i hi => ⟨hi.start_le, hi.le_lastVisited hstep⟩, ?_⟩⟩
  simpa using (filter_visits_perm (start := start) (stop := stop) hstep).length_eq

end Sys2Proof.Machine
end

section
/-! PROOFS. When SetRange fails, and two range sets in both orders (spec/40_bitvector.md R91, R97). -/

namespace Sys2Proof.Machine

variable {v v' w : BoolVec} {a b k a' b' k' : Nat} {val val' : Bool}

/-- R91's condition and the closed form the model tests: the last visited index is out of bounds when any one is. -/
theorem setRange_eq_none_iff_visited (hk : 1 ≤ k) :
    setRange v a b k val = none ↔ ∃ i, Visited a b k i ∧ v.length ≤ i := by
  rw [setRange_eq_none]
  constructor
  · rintro ⟨hne, hlast⟩
    exact ⟨_, visited_lastVisited hk hne, hlast⟩
  · rintro ⟨i, hi, hlen⟩
    exact ⟨hi.start_le.trans_lt hi.lt_stop, hlen.trans (hi.le_lastVisited hk)⟩

/-- Whether a range set fails depends on the vector's length only. -/
theorem exists_setRange_of_length_eq (hlen : w.length = v.length) (h : setRange v a b k val = some v') :
    ∃ w', setRange w a b k val' = some w' := by
  rw [← Option.ne_none_iff_exists', ne_eq, setRange_eq_none, hlen, ← setRange_eq_none (val := val), h]
  exact Option.some_ne_none v'

/-- A visited index of a range set that does not fail is in bounds. -/
theorem lt_length_of_visited {i : Nat} (hk : 1 ≤ k) (h : setRange v a b k val = some v') (hi : Visited a b k i) :
    i < v.length := by
  by_contra hout
  have hnone : setRange v a b k val = none := (setRange_eq_none_iff_visited hk).2 ⟨i, hi, not_lt.1 hout⟩
  cases h.symm.trans hnone

theorem setRange_getElem?_of_visited {i : Nat} (hk : 1 ≤ k) (h : setRange v a b k val = some v')
    (hi : Visited a b k i) : v'[i]? = some val := by
  rw [(setRange_some h).2, List.getElem?_eq_getElem (lt_length_of_visited hk h hi), Option.map_some,
    if_pos (visits_iff.2 hi)]

theorem setRange_getElem?_of_not_visited {i : Nat} (h : setRange v a b k val = some v') (hi : ¬ Visited a b k i) :
    v'[i]? = v[i]? := by
  simp [(setRange_some h).2 i, mt visits_iff.1 hi]

/-- With one value, an index is written when either range visits it. -/
theorem setRange_comm (h : setRange v a b k val = some v') (h' : setRange v' a' b' k' val = some w) :
    ∃ u, setRange v a' b' k' val = some u ∧ setRange u a b k val = some w := by
  obtain ⟨u, hu⟩ := exists_setRange_of_length_eq (val' := val) (setRange_some h).1.symm h'
  obtain ⟨w', hw⟩ := exists_setRange_of_length_eq (val' := val) (setRange_some hu).1 h
  have hsame : w' = w := by
    apply List.ext_getElem?
    intro i
    rw [(setRange_some hw).2, (setRange_some hu).2, (setRange_some h').2, (setRange_some h).2, Option.map_map,
      Option.map_map]
    congr 1
    funext x
    simp only [Function.comp_apply]
    split_ifs <;> rfl
  exact ⟨u, hu, hsame ▸ hw⟩

end Sys2Proof.Machine
end

section
/-! PROOFS. The BitVector commands: what each answers when its operands are in order, and when an index is out of
bounds (spec/40_bitvector.md R92 to R97). -/

namespace Sys2Proof.Machine

variable {s t : State} {sel : Sel} {v v' : BoolVec} {a b k : Nat} {val : Bool}

theorem exec_bvnew_of_withinMax {n : Nat} (h : WithinMax s.conf n) :
    exec (.bvnew sel n val) s = .next (respond (.ok .empty) (writeV sel (newVec n val) s)) :=
  if_pos (fitsMax_iff.2 h)

theorem exec_bvset_of_set (hv : readV sel s = some v) (hk : 1 ≤ k) (hset : setRange v a b k val = some v') :
    exec (.bvset sel a b k val) s = .next (respond (.ok .empty) (writeV sel v' s)) := by
  change execBvset sel a b k val s = _
  simp only [execBvset, hv, if_neg (Nat.ne_of_gt hk), hset, done]

theorem exec_bvset_of_fail (hv : readV sel s = some v) (hk : 1 ≤ k) (hset : setRange v a b k val = none) :
    exec (.bvset sel a b k val) s = .next (respond (.err .indexOutOfRange none) s) := by
  change execBvset sel a b k val s = _
  simp only [execBvset, hv, if_neg (Nat.ne_of_gt hk), hset, raise]

/-- A BVSET that answers `Ok` has set the range. -/
theorem exec_bvset_succeeded (h : exec (.bvset sel a b k val) s = .next t)
    (hok : t.respOut = s.respOut ++ [.ok .empty]) :
    ∃ v v', readV sel s = some v ∧ 1 ≤ k ∧ setRange v a b k val = some v' ∧
      t = respond (.ok .empty) (writeV sel v' s) := by
  obtain ⟨-, rfl⟩ | ⟨v, hv, ⟨-, rfl⟩ | ⟨-, -, rfl⟩ | ⟨v', hk, hset, ht⟩⟩ := execBvset_cases h
  · simp at hok
  · simp at hok
  · simp at hok
  · exact ⟨v, v', hv, hk, hset, ht⟩

/-- The later of two writes to one register stays, whatever was answered between them. -/
theorem writeV_respond_writeV (r : Response) :
    writeV sel v' (respond r (writeV sel v s)) = respond r (writeV sel v' s) := by
  cases sel <;> rfl

/-- Settles O29: the register holds `newVec`. -/
theorem bvnewConstructsFilledVector : Obligations.BvnewConstructsFilledVector := by
  intro s sel n val hmax
  exact ⟨newVec n val, exec_bvnew_of_withinMax hmax, newVec_length n val, fun i hi => by
    rw [newVec_getElem?, if_pos hi]⟩

/-- Settles O32: whether the range set fails is R91's condition, and what it writes is `visits`. -/
theorem bvsetWritesTheVisitedElements : Obligations.BvsetWritesTheVisitedElements := by
  intro s sel a b k val v hv hk
  refine ⟨fun hin => ?_, fun hout => exec_bvset_of_fail hv hk ((setRange_eq_none_iff_visited hk).2 hout)⟩
  cases hset : setRange v a b k val with
  | none =>
    obtain ⟨i, hi, hlen⟩ := (setRange_eq_none_iff_visited hk).1 hset
    exact absurd (hin i hi) hlen.not_gt
  | some v' =>
    exact ⟨v', exec_bvset_of_set hv hk hset, (setRange_some hset).1, fun i _ =>
      ⟨setRange_getElem?_of_visited hk hset, setRange_getElem?_of_not_visited hset⟩⟩

/-- Settles O33: both commands set ranges of the one register, and the responses they emit are the same. -/
theorem bvsetsCommuteOrLaterWins : Obligations.BvsetsCommuteOrLaterWins := by
  intro s t u sel a b k a' b' k' val val' ht htok hu huok
  obtain ⟨v, v₁, hv, hk, hset, rfl⟩ := exec_bvset_succeeded ht htok
  obtain ⟨v₁', v₂, hv₁, hk', hset', rfl⟩ := exec_bvset_succeeded hu huok
  obtain rfl : v₁ = v₁' := by simpa using hv₁
  refine ⟨fun hval => ?_, fun _ => ⟨v₂, by simp, fun i _ hi => setRange_getElem?_of_visited hk' hset' hi⟩⟩
  subst hval
  obtain ⟨w, hw, hw'⟩ := setRange_comm hset hset'
  refine ⟨_, exec_bvset_of_set hv hk' hw, by simp, ?_⟩
  rw [exec_bvset_of_set (v := w) (by simp) hk hw', writeV_respond_writeV, writeV_respond_writeV]

/-- Settles O34, one branch of BVGET after the other. -/
theorem bvgetReadsTheElement : Obligations.BvgetReadsTheElement := by
  intro s sel i
  have hexec : exec (.bvget sel i) s = execBvget sel i s := rfl
  rw [hexec]
  refine ⟨fun v x hv hx => ?_, fun v hv hlen => ?_, fun hv => ?_⟩
  · simp only [execBvget, hv, hx, done]
  · simp only [execBvget, hv, List.getElem?_eq_none hlen, raise]
  · simp only [execBvget, hv, raise]

/-- The writes of BVNEW and BVSET are to the register the command names. -/
theorem HasEffect.named_of_one_vector_writer {i : Instr} {e : Effect} (he : HasEffect s i e)
    (hi : (∃ n val, i = .bvnew sel n val) ∨ ∃ a b k val, i = .bvset sel a b k val) :
    e = .nothing ∨ ∃ v, e = .vector sel v := by
  obtain ⟨n, val, rfl⟩ | ⟨a, b, k, val, rfl⟩ := hi
  · cases he with
    | nothing => exact .inl rfl
    | bvnew _ => exact .inr ⟨_, rfl⟩
  · cases he with
    | nothing => exact .inl rfl
    | bvset _ _ => exact .inr ⟨_, rfl⟩

/-- Settles O23: the command writes nothing, or the one register. -/
theorem oneVectorWritersFrame : Obligations.OneVectorWritersFrame := by
  intro i sel s t hi h
  obtain ⟨r, e, he, rfl⟩ := exec_cases h
  obtain rfl | ⟨v, rfl⟩ := he.named_of_one_vector_writer hi
  · simp
  · simp

end Sys2Proof.Machine
end

section
/-! PROOFS. An interval of an axis: the range of stride 1 that APMCLR clears (spec/41_projection.md R111). -/

namespace Sys2Proof.Machine

variable {v v' : BoolVec} {x n : Nat} {val : Bool}

theorem visited_interval_iff {i : Nat} : Visited x (x + n) 1 i ↔ x ≤ i ∧ i < x + n := by
  refine ⟨fun h => ⟨h.start_le, h.lt_stop⟩, fun ⟨hle, hlt⟩ => ⟨i - x, ?_, hlt⟩⟩
  omega

theorem setRange_interval_eq_none : setRange v x (x + n) 1 val = none ↔ ¬ RangeFits v.length x n := by
  simp only [setRange_eq_none_iff_visited le_rfl, visited_interval_iff, RangeFits]
  constructor
  · rintro ⟨i, hi, hlen⟩
    omega
  · intro hout
    exact ⟨x + n - 1, by omega, by omega⟩

theorem exists_setRange_of_rangeFits (h : RangeFits v.length x n) : ∃ v', setRange v x (x + n) 1 val = some v' :=
  Option.ne_none_iff_exists'.1 fun hnone => setRange_interval_eq_none.1 hnone h

theorem rangeFits_of_setRange (h : setRange v x (x + n) 1 val = some v') : RangeFits v.length x n := by
  by_contra hout
  cases h.symm.trans (setRange_interval_eq_none.2 hout)

theorem setRange_interval_getElem? (h : setRange v x (x + n) 1 val = some v') (i : Nat) :
    v'[i]? = if x ≤ i ∧ i < x + n then v[i]?.map fun _ => val else v[i]? := by
  split
  · rename_i hin
    have hvisited := visited_interval_iff.2 hin
    rw [setRange_getElem?_of_visited le_rfl h hvisited,
      List.getElem?_eq_getElem (lt_length_of_visited le_rfl h hvisited), Option.map_some]
  · rename_i hout
    exact setRange_getElem?_of_not_visited h (mt visited_interval_iff.1 hout)

/-- A range set finds its own result as it would leave it. -/
theorem setRange_idem {a b k : Nat} (h : setRange v a b k val = some v') : setRange v' a b k val = some v' := by
  obtain ⟨w, hw⟩ := exists_setRange_of_length_eq (val' := val) (setRange_some h).1 h
  have hsame : w = v' := by
    apply List.ext_getElem?
    intro i
    rw [(setRange_some hw).2, (setRange_some h).2, Option.map_map]
    congr 1
    funext b
    simp only [Function.comp_apply]
    split_ifs <;> rfl
  rw [hw, hsame]

end Sys2Proof.Machine
end

section
/-! PROOFS. APMNEW and APMCLR: what each answers and what it leaves unchanged (spec/41_projection.md R110 to R112,
R114). -/

namespace Sys2Proof.Machine

variable {s t : State} {c r c' r' : BoolVec} {x y w h : Nat}

theorem exec_apmnew_of_withinMax {val : Bool} (hw : WithinMax s.conf w) (hh : WithinMax s.conf h) :
    exec (.apmnew w h val) s = .next (respond (.ok .empty) (writeBoth (newVec w val) (newVec h val) s)) :=
  if_pos (Bool.and_eq_true_iff.2 ⟨fitsMax_iff.2 hw, fitsMax_iff.2 hh⟩)

theorem exec_apmclr_of_set (hc : s.cols = some c) (hr : s.rows = some r)
    (hsetc : setRange c x (x + w) 1 false = some c') (hsetr : setRange r y (y + h) 1 false = some r') :
    exec (.apmclr x y w h) s = .next (respond (.ok .empty) (writeBoth c' r' s)) := by
  change execApmclr x y w h s = _
  simp only [execApmclr, hc, hr, hsetc, hsetr, done]

theorem exec_apmclr_of_fail (hc : s.cols = some c) (hr : s.rows = some r)
    (hout : ¬ (RangeFits c.length x w ∧ RangeFits r.length y h)) :
    exec (.apmclr x y w h) s = .next (respond (.err .indexOutOfRange none) s) := by
  change execApmclr x y w h s = _
  simp only [execApmclr, hc, hr]
  split
  · rename_i hsetc hsetr
    exact absurd ⟨rangeFits_of_setRange hsetc, rangeFits_of_setRange hsetr⟩ hout
  · rfl

theorem exec_apmclr_of_not_constructed (hnone : s.cols = none ∨ s.rows = none) :
    exec (.apmclr x y w h) s = .next (respond (.err .notConstructed none) s) := by
  change execApmclr x y w h s = _
  unfold execApmclr
  split
  · rename_i hc hr
    obtain hnone | hnone := hnone
    · cases hc.symm.trans hnone
    · cases hr.symm.trans hnone
  · rfl

/-- An APMCLR that answers `Ok` has cleared both intervals. -/
theorem exec_apmclr_succeeded (hrun : exec (.apmclr x y w h) s = .next t)
    (hok : t.respOut = s.respOut ++ [.ok .empty]) :
    ∃ c r c' r', s.cols = some c ∧ s.rows = some r ∧ setRange c x (x + w) 1 false = some c' ∧
      setRange r y (y + h) 1 false = some r' ∧ t = respond (.ok .empty) (writeBoth c' r' s) := by
  obtain ⟨-, rfl⟩ | ⟨c, r, hc, hr, ⟨-, rfl⟩ | ⟨c', r', hsetc, hsetr, ht⟩⟩ := execApmclr_cases hrun
  · simp at hok
  · simp at hok
  · exact ⟨c, r, c', r', hc, hr, hsetc, hsetr, ht⟩

/-- An APMCLR on what it has left answers the same and leaves both vectors alone. -/
theorem exec_apmclr_again (hrun : exec (.apmclr x y w h) s = .next t) :
    ∃ p, t.respOut = s.respOut ++ [p] ∧ (p ≠ .ok .empty → t.cols = s.cols ∧ t.rows = s.rows) ∧
      ∃ u, exec (.apmclr x y w h) t = .next u ∧ u.respOut = t.respOut ++ [p] ∧ u.cols = t.cols ∧ u.rows = t.rows := by
  obtain ⟨hnone, rfl⟩ | ⟨c, r, hc, hr, ⟨hfail, rfl⟩ | ⟨c', r', hsetc, hsetr, rfl⟩⟩ := execApmclr_cases hrun
  · exact ⟨_, rfl, fun _ => ⟨rfl, rfl⟩, _, exec_apmclr_of_not_constructed hnone, rfl, rfl, rfl⟩
  · simp only [setRange_interval_eq_none, ← not_and_or] at hfail
    exact ⟨_, rfl, fun _ => ⟨rfl, rfl⟩, _, exec_apmclr_of_fail hc hr hfail, rfl, rfl, rfl⟩
  · exact ⟨_, rfl, fun herr => absurd rfl herr, _,
      exec_apmclr_of_set rfl rfl (setRange_idem hsetc) (setRange_idem hsetr), rfl, rfl, rfl⟩

/-- Settles O24: the command writes both vectors or nothing. -/
theorem bothVectorsWritersFrame : Obligations.BothVectorsWritersFrame := by
  intro i s t hi hrun
  obtain ⟨p, e, he, rfl⟩ := exec_cases hrun
  obtain ⟨w, h, val, rfl⟩ | ⟨x, y, w, h, rfl⟩ := hi
  · cases he with
    | nothing => exact ⟨p, rfl⟩
    | apmnew _ _ => exact ⟨p, rfl⟩
  · cases he with
    | nothing => exact ⟨p, rfl⟩
    | apmclr _ _ _ _ => exact ⟨p, rfl⟩

/-- Settles O35: the registers hold `newVec`. -/
theorem apmnewConstructsBoth : Obligations.ApmnewConstructsBoth := by
  intro s w h val hw hh
  have hfilled : ∀ n, ∀ i < n, (newVec n val)[i]? = some val := fun n i hi => by rw [newVec_getElem?, if_pos hi]
  exact ⟨_, _, exec_apmnew_of_withinMax hw hh, newVec_length w val, newVec_length h val, hfilled w, hfilled h⟩

/-- Settles O36: each range set fails exactly where its interval does not fit. -/
theorem apmclrClearsBothOrNeither : Obligations.ApmclrClearsBothOrNeither := by
  refine ⟨fun s x y w h c r hc hr => ⟨fun hfitc hfitr => ?_, exec_apmclr_of_fail hc hr⟩,
    fun s x y w h => exec_apmclr_of_not_constructed⟩
  obtain ⟨c', hsetc⟩ := exists_setRange_of_rangeFits (val := false) hfitc
  obtain ⟨r', hsetr⟩ := exists_setRange_of_rangeFits (val := false) hfitr
  exact ⟨c', r', exec_apmclr_of_set hc hr hsetc hsetr, (setRange_some hsetc).1, (setRange_some hsetr).1,
    setRange_interval_getElem? hsetc, setRange_interval_getElem? hsetr⟩

/-- Settles O37: the second run is the one `exec_apmclr_again` finds. -/
theorem apmclrIsIdempotent : Obligations.ApmclrIsIdempotent := by
  intro s t u x y w h ht hu
  obtain ⟨p, htp, hfailed, u', hu', hup, hcols, hrows⟩ := exec_apmclr_again ht
  cases hu'.symm.trans hu
  exact ⟨hcols, hrows, p, htp, hup, hfailed⟩

/-- Settles O38: the columns are cleared as before, and the two row ranges commute. -/
theorem successfulClearsExchangeAxes : Obligations.SuccessfulClearsExchangeAxes := by
  intro s t u x₁ y₁ w₁ h₁ x₂ y₂ w₂ h₂ ht htok hu huok
  obtain ⟨c, r, c₁, r₁, hc, hr, hsetc₁, hsetr₁, rfl⟩ := exec_apmclr_succeeded ht htok
  obtain ⟨_, _, c₂, r₂, ⟨⟩, ⟨⟩, hsetc₂, hsetr₂, rfl⟩ := exec_apmclr_succeeded hu huok
  obtain ⟨r', hsetr', hsetr₂'⟩ := setRange_comm hsetr₁ hsetr₂
  exact ⟨_, exec_apmclr_of_set hc hr hsetc₁ hsetr', exec_apmclr_of_set rfl rfl hsetc₂ hsetr₂'⟩

end Sys2Proof.Machine
end

section
/-! PROOFS. A list of rectangle clears, by induction over the list (spec/41_projection.md R113). -/

namespace Sys2Proof.Machine

/-- `v'` is `v` with its elements in `P` cleared. A boolean that is not false is true, so this says what every element
of `v'` is. -/
structure ClearedTo (v : BoolVec) (P : Nat → Prop) (v' : BoolVec) : Prop where
  length : v'.length = v.length
  eq_false_iff : ∀ i < v.length, v'[i]? = some false ↔ v[i]? = some false ∨ P i

namespace ClearedTo

variable {v v' v'' : BoolVec} {P Q PQ : Nat → Prop}

theorem unchanged (hP : ∀ i, ¬ P i) : ClearedTo v P v := ⟨rfl, fun i _ => by simp [hP i]⟩

theorem trans (h : ClearedTo v P v') (h' : ClearedTo v' Q v'') (hPQ : ∀ i, PQ i ↔ P i ∨ Q i) : ClearedTo v PQ v'' where
  length := h'.length.trans h.length
  eq_false_iff i hi := by rw [h'.eq_false_iff i (h.length ▸ hi), h.eq_false_iff i hi, hPQ, or_assoc]

theorem of_setRange {x n : Nat} (h : setRange v x (x + n) 1 false = some v') (hP : ∀ i, P i ↔ x ≤ i ∧ i < x + n) :
    ClearedTo v P v' where
  length := (setRange_some h).1
  eq_false_iff i hi := by
    rw [setRange_interval_getElem? h, hP]
    split
    · rename_i hin
      rw [List.getElem?_eq_getElem hi, Option.map_some]
      exact iff_of_true rfl (.inr hin)
    · rename_i hout
      exact (or_iff_left hout).symm

end ClearedTo

/-- The rectangle fits and `i` lies in its column interval. -/
def Rect.ClearsColumn (q : Rect) (cols rows i : Nat) : Prop := q.Fits cols rows ∧ q.x ≤ i ∧ i < q.x + q.width

/-- The rectangle fits and `i` lies in its row interval. -/
def Rect.ClearsRow (q : Rect) (cols rows i : Nat) : Prop := q.Fits cols rows ∧ q.y ≤ i ∧ i < q.y + q.height

variable {s : State} {c r : BoolVec}

theorem exec_apmclr_clearedTo (q : Rect) (hc : s.cols = some c) (hr : s.rows = some r) :
    ∃ t c' r', exec (.apmclr q.x q.y q.width q.height) s = .next t ∧ t.cols = some c' ∧ t.rows = some r' ∧
      ClearedTo c (q.ClearsColumn c.length r.length) c' ∧ ClearedTo r (q.ClearsRow c.length r.length) r' := by
  by_cases hfits : q.Fits c.length r.length
  · obtain ⟨c', hsetc⟩ := exists_setRange_of_rangeFits (val := false) hfits.1
    obtain ⟨r', hsetr⟩ := exists_setRange_of_rangeFits (val := false) hfits.2
    exact ⟨_, c', r', exec_apmclr_of_set hc hr hsetc hsetr, rfl, rfl,
      .of_setRange hsetc fun _ => and_iff_right hfits, .of_setRange hsetr fun _ => and_iff_right hfits⟩
  · exact ⟨_, c, r, exec_apmclr_of_fail hc hr hfits, hc, hr,
      .unchanged fun _ hi => hfits hi.1, .unchanged fun _ hi => hfits hi.1⟩

/-- The lengths do not change along the list, so which rectangles fit is settled at its start. -/
theorem clearAll_clearedTo (qs : List Rect) (hc : s.cols = some c) (hr : s.rows = some r) :
    ∃ t c' r', clearAll qs s = .next t ∧ t.cols = some c' ∧ t.rows = some r' ∧
      ClearedTo c (fun i => ∃ q ∈ qs, q.ClearsColumn c.length r.length i) c' ∧
      ClearedTo r (fun i => ∃ q ∈ qs, q.ClearsRow c.length r.length i) r' := by
  induction qs generalizing s c r with
  | nil => exact ⟨s, c, r, rfl, hc, hr, .unchanged (by simp), .unchanged (by simp)⟩
  | cons q qs ih =>
    obtain ⟨t, c₁, r₁, hrun, hc₁, hr₁, hcleared, hrcleared⟩ := exec_apmclr_clearedTo q hc hr
    obtain ⟨u, c', r', hruns, hc', hr', hcleared', hrcleared'⟩ := ih hc₁ hr₁
    rw [hcleared.length, hrcleared.length] at hcleared' hrcleared'
    refine ⟨u, c', r', ?_, hc', hr', hcleared.trans hcleared' fun i => List.exists_mem_cons_iff ..,
      hrcleared.trans hrcleared' fun i => List.exists_mem_cons_iff ..⟩
    rw [clearAll, hrun]
    exact hruns

/-- Settles O39: the clears start from vectors that hold the fill everywhere. -/
theorem clearListClearsTheUnion : Obligations.ClearListClearsTheUnion := by
  intro qs s C R val hc hr
  obtain ⟨t, c', r', hrun, hc', hr', hcleared, hrcleared⟩ := clearAll_clearedTo qs hc hr
  have hfill : ∀ n, ∀ i < n, (List.replicate n val)[i]? = some false ↔ val = false := fun n i hi => by
    rw [List.getElem?_replicate_of_lt hi, Option.some_inj]
  simp only [List.length_replicate] at hcleared hrcleared
  refine ⟨t, c', r', hrun, hc', hr', by simpa using hcleared.length, by simpa using hrcleared.length,
    fun i hi => ?_, fun i hi => ?_⟩
  · rw [hcleared.eq_false_iff i (by simpa using hi), hfill C i hi]
    rfl
  · rw [hrcleared.eq_false_iff i (by simpa using hi), hfill R i hi]
    rfl

end Sys2Proof.Machine
end

section
/-! PROOFS. COMPOSE and the grid it derives: each cell, the duality of the policies and the flip
(spec/42_compositor.md R120 to R126). -/

namespace Sys2Proof.Machine

variable {s : State} {cv rv : BoolVec} {x y : Nat}

theorem exec_compose_of_constructed (pol : Policy) (flip : Bool) (hc : s.cols = some cv) (hr : s.rows = some rv) :
    exec (.compose pol flip) s = .next (respond (.ok .empty) (writeGrid (compose cv rv pol flip) s)) := by
  change execCompose pol flip s = _
  simp only [execCompose, hc, hr, done]

/-! ## One cell from its two flags -/

theorem included_eq_ite (pol : Policy) (cf rf : Bool) :
    included pol cf rf = if pol = .intersection then !(cf && rf) else !(cf || rf) := by
  cases pol <;> rfl

/-- De Morgan's law, in the form R125 gives it. -/
theorem included_intersection_eq_not_union_not (cf rf : Bool) :
    included .intersection cf rf = !included .union (!cf) (!rf) := by
  simp [included]

theorem included_intersection_of_union {cf rf : Bool} (h : included .union cf rf = true) :
    included .intersection cf rf = true := by
  simp_all [included]

/-- R123's truth table: the first and the last row are those where the policies agree. -/
theorem included_union_eq_intersection_iff (cf rf : Bool) :
    included .union cf rf = included .intersection cf rf ↔ cf = rf := by
  cases cf <;> cases rf <;> decide

/-! ## The flag of a row -/

/-- R120: the flag is an element of the row vector, since `H - 1 - y` is never out of it. -/
theorem getElem?_rowActive (flip : Bool) (hy : y < rv.length) :
    rv[if flip then rv.length - 1 - y else y]? = some (rowActive rv flip y) := by
  cases flip with
  | false => simp [rowActive, hy]
  | true =>
    have hflip : rv.length - 1 - y < rv.length := by omega
    simp [rowActive, hflip]

theorem rowActive_map_not (flip : Bool) (hy : y < rv.length) :
    rowActive (rv.map not) flip y = !rowActive rv flip y := by
  have hneg := getElem?_rowActive (rv := rv.map not) flip (by simpa using hy)
  rw [List.length_map, List.getElem?_map, getElem?_rowActive flip hy] at hneg
  exact (Option.some.inj hneg).symm

theorem rowActive_flip (hy : y < rv.length) : rowActive rv true y = rowActive rv.reverse false y := by
  rw [rowActive, rowActive, if_pos rfl, if_neg Bool.false_ne_true, List.getD_reverse y hy]

/-! ## The grid -/

theorem compose_cell (pol : Policy) (flip : Bool) {cf : Bool} (hx : cv[x]? = some cf) (hy : y < rv.length) :
    (compose cv rv pol flip).cell y x = included pol cf (rowActive rv flip y) := by
  simp [Grid.cell, compose, hy, hx]

/-- Without the flip the rows of the grid follow the row vector, element by element. -/
theorem compose_noflip_rows (cv rv : BoolVec) (pol : Policy) :
    (compose cv rv pol false).rows = rv.map fun rf => cv.map fun cf => included pol cf rf := by
  refine List.ext_getElem (by simp [compose]) fun y _ hy => ?_
  simp only [List.length_map] at hy
  simp [compose, rowActive, hy]

theorem compose_flip_eq_reverse (cv rv : BoolVec) (pol : Policy) :
    compose cv rv pol true = compose cv rv.reverse pol false := by
  have hrow : ∀ y ∈ List.range rv.length, (cv.map fun cf => included pol cf (rowActive rv true y)) =
      cv.map fun cf => included pol cf (rowActive rv.reverse false y) := fun y hy => by
    rw [rowActive_flip (List.mem_range.1 hy)]
  simp only [compose, List.length_reverse, List.map_congr_left hrow]

/-- Settles O46: the grid is `compose` of the two vectors. -/
theorem composeGridCells : Obligations.ComposeGridCells := by
  intro s pol flip cv rv hc hr
  refine ⟨compose cv rv pol flip, exec_compose_of_constructed pol flip hc hr, compose_h .., compose_w ..,
    compose_wf cv rv pol flip, fun y x cf rf hx hy hrf => ?_⟩
  have hflag : rowActive rv flip y = rf := Option.some.inj ((getElem?_rowActive flip hy).symm.trans hrf)
  rw [compose_cell pol flip hx hy, hflag, included_eq_ite]

/-- Settles O47: the laws of one cell, at its column's and its row's flag. The source's equation fails where both
flags are true. -/
theorem policiesAreDeMorganDuals : Obligations.PoliciesAreDeMorganDuals := by
  refine ⟨fun cv rv flip y x hy hx => ?_, [true], [true], false, 0, 0, by decide⟩
  have hcol : cv[x]? = some cv[x] := List.getElem?_eq_getElem hx
  have hneg : (cv.map not)[x]? = some !cv[x] := by rw [List.getElem?_map, hcol, Option.map_some]
  rw [compose_cell .intersection flip hcol hy, compose_cell .union flip hcol hy,
    compose_cell .union flip hneg (by simpa using hy), rowActive_map_not flip hy, hcol, getElem?_rowActive flip hy,
    Option.some_inj]
  exact ⟨included_intersection_eq_not_union_not .., included_intersection_of_union,
    included_union_eq_intersection_iff ..⟩

/-- Settles O48: the reversed row vector gives the reversed rows. -/
theorem flipReversesTheRows : Obligations.FlipReversesTheRows := by
  intro c r pol
  refine ⟨compose_flip_eq_reverse c r pol, ?_⟩
  rw [compose_flip_eq_reverse, compose_noflip_rows, compose_noflip_rows, List.map_reverse]

end Sys2Proof.Machine
end

section
/-! PROOFS. The packed words: the bit map of Pack in both directions, a vector of one value, a range set, and the two
commands that answer them (spec/43_packed_serializer.md R135 to R145). -/

namespace Sys2Proof.Machine

variable {s t : State} {v v' : BoolVec} {w : Word}

/-! ## The words and their bits -/

theorem pack_getElem?_eq_some_iff {k : Nat} : (pack v)[k]? = some w ↔ k < (pack v).length ∧ packWord v k = w := by
  rw [pack_getElem?, pack_length, Option.ite_none_right_eq_some, Option.some_inj]

theorem pack_getElem?_getLsbD {k j : Nat} (h : (pack v)[k]? = some w) (hj : j < 64) :
    w.getLsbD j = v.getD (64 * k + j) false := by
  rw [← (pack_getElem?_eq_some_iff.1 h).2, packWord_getLsbD v k j hj]

/-- A word is determined by its 64 elements. -/
theorem packWord_eq_of_bits {k : Nat} (h : ∀ j < 64, v.getD (64 * k + j) false = w.getLsbD j) : packWord v k = w :=
  BitVec.eq_of_getLsbD_eq fun j hj => (packWord_getLsbD v k j hj).trans (h j hj)

/-- Element `i` is bit `i % 64` of word `i / 64`. -/
theorem packWord_div_getLsbD_mod (v : BoolVec) (i : Nat) :
    (packWord v (i / 64)).getLsbD (i % 64) = v.getD i false := by
  rw [packWord_getLsbD v _ _ (Nat.mod_lt i (by decide)), Nat.div_add_mod]

/-- The word of an element is one of the packed words. -/
theorem pack_getElem?_div {i : Nat} (hi : i < v.length) : (pack v)[i / 64]? = some (packWord v (i / 64)) := by
  rw [pack_getElem?_eq_some_iff, pack_length, ceilDiv]
  exact ⟨by omega, rfl⟩

/-- A padding bit stands in the last word, above the elements left for that word. -/
theorem pack_padding {k j : Nat} (hk : k < (pack v).length) (hj : j < 64) (hpad : v.length ≤ 64 * k + j) :
    k + 1 = (pack v).length ∧ v.length % 64 ≠ 0 ∧ v.length % 64 ≤ j := by
  rw [pack_length, ceilDiv] at hk ⊢
  omega

theorem pack_injective_of_length_eq (hlen : v.length = v'.length) (h : pack v = pack v') : v = v' := by
  refine List.ext_getElem hlen fun i hi hi' => ?_
  have hword : packWord v (i / 64) = packWord v' (i / 64) := by
    simpa only [h, pack_getElem?_div hi', Option.some_inj, eq_comm] using pack_getElem?_div hi
  calc v[i] = v.getD i false := (List.getD_eq_getElem v false hi).symm
    _ = v'.getD i false := by rw [← packWord_div_getLsbD_mod, hword, packWord_div_getLsbD_mod]
    _ = v'[i] := List.getD_eq_getElem v' false hi'

/-- Settles O41: an element is a bit of the word its index lies in. The zero padding hides the length: one or two
elements `false` give the same word. -/
theorem packIsInjectiveAtALength : Obligations.PackIsInjectiveAtALength := by
  refine ⟨fun v i b hb => ?_, fun v k j w hw hj hpad => ?_, fun v v' => pack_injective_of_length_eq,
    [false], [false, false], by decide, by decide⟩
  · obtain ⟨hi, -⟩ := List.getElem?_eq_some_iff.1 hb
    refine ⟨_, pack_getElem?_div hi, ?_⟩
    rw [packWord_div_getLsbD_mod, List.getD_eq_getElem?_getD, hb, Option.getD_some]
  · refine ⟨?_, pack_padding (pack_getElem?_eq_some_iff.1 hw).1 hj hpad⟩
    rw [pack_getElem?_getLsbD hw hj, List.getD_eq_default _ _ hpad]

/-! ## A vector of one value -/

theorem getD_replicate_eq_and (n : Nat) (b : Bool) (i : Nat) :
    (List.replicate n b).getD i false = (decide (i < n) && b) := by
  by_cases hi : i < n <;> simp [hi]

theorem packWord_replicate_false (n k : Nat) : packWord (List.replicate n false) k = 0 :=
  packWord_eq_of_bits fun j _ => by
    rw [getD_replicate_eq_and, Bool.and_false, BitVec.ofNat_eq_ofNat, BitVec.getLsbD_zero]

theorem packWord_replicate_true_full {n k : Nat} (hk : k < n / 64) :
    packWord (List.replicate n true) k = 0xFFFFFFFFFFFFFFFF := by
  refine packWord_eq_of_bits fun j hj => ?_
  have hin : 64 * k + j < n := by omega
  have hones : (0xFFFFFFFFFFFFFFFF : Word) = BitVec.allOnes 64 := rfl
  rw [getD_replicate_eq_and, hones, BitVec.getLsbD_allOnes, Bool.and_true, decide_eq_decide]
  exact iff_of_true hin hj

/-- Above the full words, `n % 64` elements are left. -/
theorem packWord_replicate_true_last (n : Nat) :
    packWord (List.replicate n true) (n / 64) = BitVec.ofNat 64 (2 ^ (n % 64) - 1) := by
  refine packWord_eq_of_bits fun j hj => ?_
  have hin : 64 * (n / 64) + j < n ↔ j < n % 64 := by omega
  rw [getD_replicate_eq_and, BitVec.getLsbD_ofNat, Nat.testBit_two_pow_sub_one]
  simp only [hin, hj, decide_true, Bool.true_and, Bool.and_true]

theorem map_packWord_range_eq_replicate {m : Nat} (h : ∀ k < m, packWord v k = w) :
    (List.range m).map (packWord v) = List.replicate m w :=
  List.eq_replicate_iff.2 ⟨by simp, List.forall_mem_map.2 fun k hk => h k (List.mem_range.1 hk)⟩

theorem pack_replicate_false (n : Nat) : pack (List.replicate n false) = List.replicate (ceilDiv n 64) 0 := by
  rw [pack, List.length_replicate, map_packWord_range_eq_replicate fun k _ => packWord_replicate_false n k]

/-- One word more than the full ones, unless the length is a multiple of 64. -/
theorem ceilDiv_64 (n : Nat) : ceilDiv n 64 = n / 64 + if n % 64 = 0 then 0 else 1 := by
  rw [ceilDiv]
  split <;> omega

theorem pack_replicate_true (n : Nat) : pack (List.replicate n true) =
    List.replicate (n / 64) 0xFFFFFFFFFFFFFFFF ++
      if n % 64 = 0 then [] else [BitVec.ofNat 64 (2 ^ (n % 64) - 1)] := by
  have hfull := map_packWord_range_eq_replicate fun k (hk : k < n / 64) => packWord_replicate_true_full hk
  rw [pack, List.length_replicate, ceilDiv_64]
  split
  · rw [Nat.add_zero, hfull, List.append_nil]
  · rw [List.range_succ, List.map_append, hfull, List.map_singleton, packWord_replicate_true_last]

/-- Settles O43, one fill value after the other. -/
theorem packOfAFill : Obligations.PackOfAFill :=
  fun n => ⟨pack_replicate_false n, pack_replicate_true n⟩

/-! ## After a range set -/

section

variable {a b k q : Nat} {val : Bool}

theorem packWord_setRange_getLsbD_of_visited {j : Nat} (hk : 1 ≤ k) (hset : setRange v a b k val = some v')
    (hj : j < 64) (hi : Visited a b k (64 * q + j)) : (packWord v' q).getLsbD j = val := by
  rw [packWord_getLsbD v' q j hj, List.getD_eq_getElem?_getD, setRange_getElem?_of_visited hk hset hi,
    Option.getD_some]

theorem packWord_setRange_getLsbD_of_not_visited {j : Nat} (hset : setRange v a b k val = some v') (hj : j < 64)
    (hi : ¬ Visited a b k (64 * q + j)) : (packWord v' q).getLsbD j = (packWord v q).getLsbD j := by
  rw [packWord_getLsbD v' q j hj, packWord_getLsbD v q j hj, List.getD_eq_getElem?_getD, List.getD_eq_getElem?_getD,
    setRange_getElem?_of_not_visited hset hi]

/-- A word in which no index is visited keeps every bit. -/
theorem packWord_setRange_of_not_visited (hset : setRange v a b k val = some v')
    (hq : ∀ i, Visited a b k i → i / 64 ≠ q) : packWord v' q = packWord v q :=
  BitVec.eq_of_getLsbD_eq fun j hj => packWord_setRange_getLsbD_of_not_visited hset hj fun hi =>
    hq _ hi (by omega)

end

/-- Settles O44: a BVSET that answers `Ok` has set the range, and a word's bits are its elements. -/
theorem packAfterBvset : Obligations.PackAfterBvset := by
  intro s t sel a b k val v v' h hok hv hv'
  obtain ⟨v₀, v₁, hv₀, hk, hset, rfl⟩ := exec_bvset_succeeded h hok
  obtain rfl : v₀ = v := Option.some.inj (hv₀.symm.trans hv)
  obtain rfl : v₁ = v' := by simpa using hv'
  refine ⟨by rw [pack_length, pack_length, (setRange_some hset).1], fun q w w' hw hw' => ?_⟩
  obtain ⟨-, rfl⟩ := pack_getElem?_eq_some_iff.1 hw
  obtain ⟨-, rfl⟩ := pack_getElem?_eq_some_iff.1 hw'
  exact ⟨fun j hj => ⟨packWord_setRange_getLsbD_of_visited hk hset hj,
    packWord_setRange_getLsbD_of_not_visited hset hj⟩, packWord_setRange_of_not_visited hset⟩

/-! ## The two commands -/

theorem exec_bvpack_of_constructed {sel : Sel} (hv : readV sel s = some v) :
    exec (.bvpack sel) s = .next (respond (.ok (.words (pack v))) s) := by
  change execBvpack sel s = _
  simp only [execBvpack, hv, done]

theorem exec_emitcfg_of_constructed (pol : Policy) {c r : BoolVec} (hc : s.cols = some c) (hr : s.rows = some r) :
    exec (.emitcfg pol) s = .next (respond (.ok (.config (pack c) (pack r) (pol == .intersection))) s) := by
  change execEmitcfg pol s = _
  simp only [execEmitcfg, hc, hr, done]

/-- Settles O40: the words are those of `pack`. -/
theorem bvpackAnswersThePackedBits : Obligations.BvpackAnswersThePackedBits :=
  fun _ _ v hv => ⟨pack v, exec_bvpack_of_constructed hv, pack_length v, fun _ _ hw _ => pack_getElem?_getLsbD hw⟩

/-- Settles O45: both commands answer the `pack` of what the registers hold. -/
theorem emitcfgAgreesWithBvpack : Obligations.EmitcfgAgreesWithBvpack :=
  fun _ pol c r hc hr => ⟨pack c, pack r, pol == .intersection, exec_emitcfg_of_constructed pol hc hr,
    exec_bvpack_of_constructed hc, exec_bvpack_of_constructed hr, by cases pol <;> decide⟩

end Sys2Proof.Machine
end

section
/-! PROOFS. What StoredDeflate wrote, ZlibDecode gives back, and so for every compressor of the model
(spec/45_deflate_zlib.md R190 to R203). -/

namespace Sys2Proof.Machine

/-! ## The stored blocks -/

@[simp] theorem storedBlock_length (fin : Bool) (q : List Byte) : (storedBlock fin q).length = q.length + 5 := rfl

/-- The first `k` blocks are full, so each of the `k + 1` blocks adds its 5 bytes to the data and nothing is padded. -/
theorem storedBlocks_length (k : Nat) {b : List Byte} (hfull : 65535 * k ≤ b.length) :
    (storedBlocks k b).length = 5 * (k + 1) + b.length := by
  induction k generalizing b with
  | zero => rw [storedBlocks, storedBlock_length]; omega
  | succ k ih =>
    rw [storedBlocks, List.length_append, storedBlock_length, ih (by rw [List.length_drop]; omega),
      List.length_take, List.length_drop]
    omega

/-- A stored block is read back whole (R194, R195): decoding ends there if it is the last, else goes on behind it. -/
theorem inflateBlocks_storedBlock (fuel : Nat) (fin : Bool) {q : List Byte} (rest outRev : List Byte)
    (hq : q.length ≤ 65535) :
    inflateBlocks (fuel + 1) outRev (streamBits (storedBlock fin q ++ rest)) =
      if fin then some (q.reverse ++ outRev, streamBits rest)
      else inflateBlocks fuel (q.reverse ++ outRev) (streamBits rest) := by
  have hbytes : storedBlock fin q ++ rest =
      BitVec.ofNat 8 fin.toNat :: ((storedBlock true q).tail ++ rest) := rfl
  obtain ⟨pad, hpad, hfinal⟩ := stored_header_bits fin ((storedBlock true q).tail ++ rest)
  have htype : ∀ r : Reader, readBits 2 (false :: false :: r) = some (0, r) := fun _ => rfl
  simp only [inflateBlocks, hbytes, hfinal, htype, inflateBlock, if_true,
    inflateStored_block q rest outRev hq pad hpad, align_stream]
  cases fin <;> rfl

/-- By induction over the blocks, as `storedBlocks` cuts them. -/
theorem inflateBlocks_storedBlocks {k fuel : Nat} {b : List Byte} (rest outRev : List Byte)
    (hb : b.length ≤ 65535 * (k + 1)) (hfuel : k < fuel) :
    inflateBlocks fuel outRev (streamBits (storedBlocks k b ++ rest)) =
      some (b.reverse ++ outRev, streamBits rest) := by
  induction k generalizing b fuel outRev with
  | zero =>
    obtain ⟨fuel, rfl⟩ := Nat.exists_eq_succ_of_ne_zero (Nat.ne_of_gt hfuel)
    rw [storedBlocks, inflateBlocks_storedBlock _ _ _ _ (by omega), if_pos rfl]
  | succ k ih =>
    obtain ⟨fuel, rfl⟩ := Nat.exists_eq_succ_of_ne_zero (Nat.ne_of_gt (Nat.zero_lt_of_lt hfuel))
    have hpiece : (b.take 65535).length ≤ 65535 := List.length_take_le _ _
    have hleft : (b.drop 65535).length ≤ 65535 * (k + 1) := by rw [List.length_drop]; omega
    rw [storedBlocks, List.append_assoc, inflateBlocks_storedBlock _ _ _ _ hpiece, if_neg Bool.false_ne_true,
      ih _ hleft (by omega), ← List.append_assoc, ← List.reverse_append, List.take_append_drop]

/-- The blocks of StoredDeflate inflate to their data, and what stands behind them is not consumed. -/
theorem inflate_storedBlocks (b rest : List Byte) :
    inflate (storedBlocks ((b.length - 1) / 65535) b ++ rest) =
      some (b, (storedBlocks ((b.length - 1) / 65535) b).length) := by
  have hlen := storedBlocks_length ((b.length - 1) / 65535) (b := b) (by omega)
  rw [inflate, inflateBlocks_storedBlocks rest [] (by omega) (by rw [streamBits_length, List.length_append]; omega)]
  simp

/-! ## StoredDeflate and COMPRESS -/

/-- R203: StoredDeflate is inverted. -/
theorem zlibDecode_storedDeflate (b : List Byte) : zlibDecode (storedDeflate b) = some b := by
  have hheader : zlibHeaderOk 0x78#8 0x01#8 = true := by decide
  have hframe : storedDeflate b =
      0x78 :: 0x01 :: (storedBlocks ((b.length - 1) / 65535) b ++ be32 (adler32 b)) := rfl
  simp [hframe, zlibDecode, hheader, inflate_storedBlocks]

theorem storedDeflate_length (b : List Byte) :
    (storedDeflate b).length = 6 + 5 * max 1 ((b.length + 65534) / 65535) + b.length := by
  have hblocks := storedBlocks_length ((b.length - 1) / 65535) (b := b) (by omega)
  simp only [storedDeflate, List.length_append, hblocks, be32_length, List.length_cons, List.length_nil]
  omega

/-- R190: an uninterpreted compressor is let through where it meets the contract, and StoredDeflate always does. -/
theorem zlibDecode_compress (c : Compressor) (b : List Byte) : zlibDecode (compress c b) = some b := by
  cases c with
  | stored => exact zlibDecode_storedDeflate b
  | uninterpreted =>
    rw [compress]
    split
    · assumption
    · exact zlibDecode_storedDeflate b

end Sys2Proof.Machine
end

section
/-! PROOFS. CRC-32 by table (spec/44_raster_encoder.md R159, R160). -/

namespace Sys2Proof.Machine

/-- Adding the polynomial `p` to both operands cancels. -/
theorem xor_xor_xor_cancel (x y p : Word32) : (x ^^^ p) ^^^ (y ^^^ p) = x ^^^ y := by
  rw [BitVec.xor_comm y, BitVec.xor_assoc, ← BitVec.xor_assoc p, BitVec.xor_self, BitVec.zero_xor]

/-- The inner step is linear over exclusive or: the polynomial is added for neither operand, one, or both. -/
theorem crcShift_xor (x y : Word32) : crcShift (x ^^^ y) = crcShift x ^^^ crcShift y := by
  simp only [crcShift, BitVec.getLsbD_xor, BitVec.ushiftRight_xor_distrib]
  cases x.getLsbD 0 <;> cases y.getLsbD 0
  · rfl
  · exact BitVec.xor_assoc ..
  · change (x >>> 1 ^^^ y >>> 1) ^^^ 0xEDB88320 = (x >>> 1 ^^^ 0xEDB88320) ^^^ y >>> 1
    ac_rfl
  · exact (xor_xor_xor_cancel ..).symm

theorem crcShift8_xor (x y : Word32) : crcShift8 (x ^^^ y) = crcShift8 x ^^^ crcShift8 y := by
  simp only [crcShift8, crcShift_xor]

/-- Without a bit to shift out, the inner step is the shift alone. -/
theorem crcShift_ushiftRight {x : Word32} {n : Nat} (h : x.getLsbD n = false) :
    crcShift (x >>> n) = x >>> (n + 1) := by
  simp [crcShift, h, BitVec.shiftRight_add]

/-- A word whose low byte is zero passes through the inner loop as a shift by 8. -/
theorem crcShift8_of_low_byte_zero {x : Word32} (h : ∀ n < 8, x.getLsbD n = false) : crcShift8 x = x >>> 8 := by
  have hfirst : crcShift x = x >>> 1 := by simpa using crcShift_ushiftRight (h 0 (by decide))
  simp only [crcShift8, hfirst, crcShift_ushiftRight (h _ _), Nat.reduceLT, Nat.reduceAdd]

/-- The low byte of a word, and the rest. -/
theorem word32_eq_low_xor_high (x : Word32) : x = (x.setWidth 8).setWidth 32 ^^^ (x >>> 8) <<< 8 := by
  ext i hi
  by_cases hlow : i < 8
  · simp [hlow, hi]
  · simp [hlow, hi, show 8 + (i - 8) = i by omega]

/-- One round of the table-driven form: the loop acts on the low byte as the table does, and on the rest as a shift. -/
theorem crcTableByte_eq_crcByte (c : Word32) (b : Byte) : crcTableByte c b = crcByte c b := by
  have hhigh : (c ^^^ b.setWidth 32) >>> 8 = c >>> 8 := by
    ext i hi
    simp
  have hrest : crcShift8 ((c >>> 8) <<< 8) = c >>> 8 := by
    rw [crcShift8_of_low_byte_zero (fun n hn => by simp [hn])]
    ext i hi
    simpa using BitVec.lt_of_getLsbD
  rw [crcByte, word32_eq_low_xor_high (c ^^^ b.setWidth 32), crcShift8_xor, hhigh, hrest]
  rfl

/-- Settles O49, byte by byte; the entries are computed. -/
theorem crcByTableAgrees : Obligations.CrcByTableAgrees := by
  refine ⟨fun bs => ?_, by decide, by decide, by decide, by decide⟩
  have hround : crcTableByte = crcByte := funext fun c => funext fun b => crcTableByte_eq_crcByte c b
  rw [crc32ByTable, crc32, hround]

end Sys2Proof.Machine
end

section
/-! PROOFS. The rows of the image as bytes, and the grid read back from them (spec/44_raster_encoder.md R162, R163,
R169). -/

namespace Sys2Proof.Machine

variable {g : Grid} {y : Nat}

/-! ## The bytes of a row -/

/-- Behind the filter byte, byte `k` is pixel byte `k`. -/
theorem rowBytesOf_getElem?_succ (w : Nat) (row : List Bool) (k : Nat) :
    (rowBytesOf w row)[k + 1]? = if k < ceilDiv w 8 then some (pixelByte row k) else none := by
  rw [rowBytesOf, List.getElem?_cons_succ, List.getElem?_map]
  split <;> simp_all

theorem ceilDiv_8 (w : Nat) : ceilDiv w 8 = (w + 7) / 8 := rfl

theorem rowStride_eq (w : Nat) : rowStride w = ceilDiv w 8 + 1 := Nat.add_comm _ _

/-- A row of the grid is as long as the grid is wide. -/
theorem Grid.Wf.length_row (hwf : g.Wf) (hy : y < g.h) : (g.rows.getD y []).length = g.w := by
  rw [List.getD_eq_getElem _ _ hy]
  exact hwf _ (List.getElem_mem hy)

/-- Right of the grid's width there is no pixel. -/
theorem Grid.Wf.cell_of_width_le (hwf : g.Wf) (hy : y < g.h) {x : Nat} (hx : g.w ≤ x) : g.cell y x = false := by
  rw [Grid.cell, List.getD_eq_default _ _ (by rwa [hwf.length_row hy])]

/-- A pixel byte of a row of the grid holds eight cells. -/
theorem pixelByte_getLsbD_cell (g : Grid) (y k : Nat) {b : Nat} (hb : b < 8) :
    (pixelByte (g.rows.getD y []) k).getLsbD (7 - b) = g.cell y (8 * k + b) :=
  pixelByte_getLsbD _ k b hb

/-- Settles O50: past the grid's width there is no cell, and the bit is 0. -/
theorem rowBytesHoldThePixels : Obligations.RowBytesHoldThePixels := by
  intro g y hwf hy
  refine ⟨by rw [rowBytes, rowBytesOf_length, ceilDiv_8, Nat.add_comm], rfl, fun k b p hp hb => ?_⟩
  rw [rowBytes, rowBytesOf_getElem?_succ, Option.ite_none_right_eq_some, Option.some_inj] at hp
  obtain ⟨-, rfl⟩ := hp
  rw [pixelByte_getLsbD_cell g y k hb]
  by_cases hx : 8 * k + b < g.w
  · simp [hx]
  · simp [hx, hwf.cell_of_width_le hy (Nat.le_of_not_lt hx)]

/-! ## The raw buffer -/

theorem raw_length (g : Grid) : (raw g).length = g.h * rowStride g.w := by
  simp [raw, List.length_flatMap, rowStride_eq, Grid.h]

/-- Row `y` stands at `y` times the bytes of a row. -/
theorem raw_getElem? (hy : y < g.h) {j : Nat} (hj : j < rowStride g.w) :
    (raw g)[y * rowStride g.w + j]? = (rowBytes g y)[j]? := by
  have hrow : g.rows[y]? = some (g.rows.getD y []) := by
    rw [List.getD_eq_getElem _ _ hy, List.getElem?_eq_getElem hy]
  rw [rowStride_eq] at hj ⊢
  rw [Nat.mul_comm, raw, flatMap_getElem?_of_length (rowBytesOf_length g.w) _ _ hj, hrow, Option.bind_some, rowBytes]

/-- Settles O51: every row has the same number of bytes. -/
theorem rawConcatenatesTheRows : Obligations.RawConcatenatesTheRows :=
  fun g => ⟨raw_length g, fun _ _ hy hj => raw_getElem? hy hj⟩

/-! ## The grid of the raw buffer -/

theorem filtersZero_raw (g : Grid) : filtersZero g.w g.h (raw g) = true := by
  refine List.all_eq_true.2 fun y hy => ?_
  have hfilter : (raw g)[y * rowStride g.w]? = some 0 :=
    raw_getElem? (j := 0) (List.mem_range.1 hy) (by rw [rowStride_eq]; omega)
  simp [List.getD_eq_getElem?_getD, hfilter]

/-- The pixel that is read is the cell: bit `7 - x % 8` of pixel byte `x / 8`. -/
theorem rawPixel_raw (hy : y < g.h) {x : Nat} (hx : x < g.w) : rawPixel g.w (raw g) y x = g.cell y x := by
  have hk : x / 8 < ceilDiv g.w 8 := by rw [ceilDiv_8]; omega
  have hbyte : (raw g)[y * rowStride g.w + 1 + x / 8]? = some (pixelByte (g.rows.getD y []) (x / 8)) := by
    rw [Nat.add_assoc, Nat.add_comm 1, raw_getElem? hy (by rw [rowStride_eq]; omega), rowBytes,
      rowBytesOf_getElem?_succ, if_pos hk]
  rw [rawPixel, List.getD_eq_getElem?_getD, hbyte, Option.getD_some,
    pixelByte_getLsbD_cell g y _ (Nat.mod_lt x (by decide)), Nat.div_add_mod]

/-- A well-formed grid is its cells. -/
theorem Grid.Wf.rows_eq_cells (hwf : g.Wf) :
    g.rows = (List.range g.h).map fun y => (List.range g.w).map fun x => g.cell y x := by
  refine List.ext_getElem (by simp [Grid.h]) fun y hy _ => ?_
  have hrow : g.rows[y].length = g.w := hwf _ (List.getElem_mem hy)
  refine List.ext_getElem (by simpa using hrow) fun x hx _ => ?_
  simp [Grid.cell, hy, hx]

/-- R169 undoes R163. -/
theorem gridOfRaw_raw (hwf : g.Wf) : gridOfRaw g.w g.h (raw g) = some g := by
  have hcells : ((List.range g.h).map fun y => (List.range g.w).map fun x => rawPixel g.w (raw g) y x) = g.rows := by
    rw [hwf.rows_eq_cells]
    exact List.map_congr_left fun y hy => List.map_congr_left fun x hx =>
      rawPixel_raw (List.mem_range.1 hy) (List.mem_range.1 hx)
  rw [gridOfRaw, if_pos ⟨raw_length g, filtersZero_raw g⟩, hcells]

end Sys2Proof.Machine
end

section
/-! PROOFS. The length of the image, and DecodeRaster on it: three chunks, of which the decoder reads the header, the
compressed data and the end (spec/44_raster_encoder.md R155 to R170). -/

namespace Sys2Proof.Machine

variable {c : Compressor} {g : Grid}

/-! ## The length of the image -/

theorem encodeGrid_length (c : Compressor) (g : Grid) :
    (encodeGrid c g).length = 57 + (compress c (raw g)).length := by
  have hiend : (chunk tagIEND []).length = 12 := rfl
  have hidat : tagIDAT.length = 4 := rfl
  rw [encodeGrid_fields]
  simp only [List.length_append, imageHead_length, be32_length, hiend, hidat]
  omega

/-- Settles O53: a width of whole bytes makes a row `1 + w / 8` bytes, which StoredDeflate frames. -/
theorem encodedLength : Obligations.EncodedLength := by
  refine ⟨encodeGrid_length, fun g n nb hw hn hnb => ?_⟩
  have hrow : rowStride g.w = 1 + g.w / 8 := by rw [rowStride, ceilDiv_8]; omega
  have hraw : (raw g).length = n := by rw [raw_length, hrow, hn]
  have hdata : (compress .stored (raw g)).length = 6 + 5 * nb + n := by
    rw [compress, storedDeflate_length, hraw, hnb]
  exact ⟨hdata, by rw [encodeGrid_length, hdata]; omega⟩

/-! ## One chunk -/

theorem splitBytes_append {n : Nat} {as : List Byte} (h : as.length = n) (bs : List Byte) :
    splitBytes n (as ++ bs) = some (as, bs) := by
  rw [splitBytes, if_neg (by rw [List.length_append]; omega), List.take_left' h, List.drop_left' h]

/-- R169 undoes R157, on a payload whose length the length field can hold. -/
theorem parseChunk_chunk {tag payload : List Byte} (htag : tag.length = 4) (hlen : payload.length < 2 ^ 32)
    (rest : List Byte) : parseChunk (chunk tag payload ++ rest) = some (⟨tag, payload⟩, rest) := by
  have hcrc : beValue (be32 (crc32 (tag ++ payload)).toNat) = (crc32 (tag ++ payload)).toNat :=
    beValue_be32 (crc32 (tag ++ payload)).isLt
  simp only [parseChunk, chunk, List.append_assoc, splitBytes_append (be32_length _), splitBytes_append htag,
    splitBytes_append (beValue_be32 hlen).symm, hcrc, if_true]

theorem parseChunks_chunk (fuel : Nat) {tag payload : List Byte} (htag : tag.length = 4)
    (hlen : payload.length < 2 ^ 32) (rest : List Byte) :
    parseChunks (fuel + 1) (chunk tag payload ++ rest) = (parseChunks fuel rest).map (⟨tag, payload⟩ :: ·) := by
  have hparse := parseChunk_chunk htag hlen rest
  cases hbytes : chunk tag payload ++ rest with
  | nil => simp [chunk, be32] at hbytes
  | cons b bs =>
    rw [hbytes] at hparse
    simp only [parseChunks, hparse]
    cases parseChunks fuel rest <;> rfl

theorem parseChunks_nil (fuel : Nat) : parseChunks fuel [] = some [] := by cases fuel <;> rfl

/-! ## The image -/

/-- The three chunks of an image (R155). -/
def imageChunks (c : Compressor) (g : Grid) : List Chunk :=
  [⟨tagIHDR, header g.w g.h⟩, ⟨tagIDAT, compress c (raw g)⟩, ⟨tagIEND, []⟩]

/-- What follows the signature is read as those three chunks. -/
theorem parseChunks_encodeGrid (hdata : (compress c (raw g)).length < 2 ^ 32) :
    parseChunks (encodeGrid c g).length ((encodeGrid c g).drop 8) = some (imageChunks c g) := by
  have hbehind : (encodeGrid c g).drop 8 =
      chunk tagIHDR (header g.w g.h) ++ (chunk tagIDAT (compress c (raw g)) ++ (chunk tagIEND [] ++ [])) := by
    simp only [encodeGrid, List.append_assoc, List.append_nil]
    exact List.drop_left' rfl
  obtain ⟨fuel, hfuel⟩ : ∃ fuel, (encodeGrid c g).length = fuel + 1 + 1 + 1 :=
    ⟨54 + (compress c (raw g)).length, by rw [encodeGrid_length]; omega⟩
  rw [hbehind, hfuel, parseChunks_chunk _ rfl (by simp), parseChunks_chunk _ rfl hdata,
    parseChunks_chunk _ rfl (by simp), parseChunks_nil]
  rfl

/-- R169 undoes R161 on sizes that are not zero and fit their fields. -/
theorem parseHeader_header {w h : Nat} (hw : 1 ≤ w) (hw' : w < 2 ^ 32) (hh : 1 ≤ h) (hh' : h < 2 ^ 32) :
    parseHeader ⟨tagIHDR, header w h⟩ = some (w, h) := by
  have hwidth : beValue ((header w h).take 4) = w := beValue_be32 hw'
  have hheight : beValue (((header w h).drop 4).take 4) = h := beValue_be32 hh'
  rw [parseHeader, hwidth, hheight, if_pos ⟨rfl, header_length w h, rfl, hw, hh⟩]

/-- Of the three chunks one is image data. -/
theorem imageData_imageChunks (c : Compressor) (g : Grid) : imageData (imageChunks c g) = compress c (raw g) := by
  have htags : tagIHDR ≠ tagIDAT ∧ tagIEND ≠ tagIDAT := by decide
  simp [imageData, imageChunks, htags.1, htags.2]

/-- R169 where none of its requirements on signature, chunks and compressed data fails. -/
theorem decodeRaster_of_chunks {bs bytes : List Byte} {hd : Chunk} {cs : List Chunk} {w h : Nat}
    (hsignature : bs.take 8 = signature) (hchunks : parseChunks bs.length (bs.drop 8) = some (hd :: cs))
    (hheader : parseHeader hd = some (w, h)) (hlast : (hd :: cs).getLast? = some ⟨tagIEND, []⟩)
    (hdata : zlibDecode (imageData (hd :: cs)) = some bytes) : decodeRaster bs = gridOfRaw w h bytes := by
  simp only [decodeRaster, hsignature, hchunks, hheader, hlast, hdata, if_true]

theorem encodeGrid_take_signature (c : Compressor) (g : Grid) : (encodeGrid c g).take 8 = signature := by
  simp only [encodeGrid, List.append_assoc]
  exact List.take_left' rfl

/-- The three chunks decode to the grid of the raw buffer, which is the grid. -/
theorem decodeRaster_encodeGrid (hwf : g.Wf) (henc : g.Encodable c) : decodeRaster (encodeGrid c g) = some g := by
  obtain ⟨hw, hh, -, hw', hh', hdata⟩ := henc
  have hinflate : zlibDecode (imageData (imageChunks c g)) = some (raw g) := by
    rw [imageData_imageChunks, zlibDecode_compress]
  calc decodeRaster (encodeGrid c g)
      = gridOfRaw g.w g.h (raw g) := decodeRaster_of_chunks (encodeGrid_take_signature c g)
        (parseChunks_encodeGrid (by omega)) (parseHeader_header hw (by omega) hh (by omega)) rfl hinflate
    _ = some g := gridOfRaw_raw hwf

/-- Settles O57, layer by layer: the chunks, the header, the compressed data, the rows. -/
theorem rasterRoundTrip : Obligations.RasterRoundTrip :=
  fun _ _ => decodeRaster_encodeGrid

end Sys2Proof.Machine
end

section
/-! PROOFS. The command ENCODE: the grids it refuses, its one write, and its answers (spec/44_raster_encoder.md R166,
R167, R174). -/

namespace Sys2Proof.Machine

variable {s t : State} {g : Grid}

/-! ## Which grids are accepted -/

/-- EncodeCheck passes exactly the accepted grids. -/
theorem encodeCheck_iff {c : Compressor} : encodeCheck c g = true ↔ g.Encodable c := by
  simp only [encodeCheck, Bool.and_eq_true, Bool.not_eq_true', Bool.or_eq_false_iff, beq_iff_eq,
    beq_eq_false_iff_ne, decide_eq_false_iff_not, Nat.not_lt]
  constructor
  · rintro ⟨⟨⟨⟨hw, hh⟩, hbytes⟩, hw', hh'⟩, hdata⟩
    exact ⟨Nat.pos_of_ne_zero hw, Nat.pos_of_ne_zero hh, hbytes, hw', hh', hdata⟩
  · rintro ⟨hw, hh, hbytes, hw', hh', hdata⟩
    exact ⟨⟨⟨⟨Nat.ne_of_gt hw, Nat.ne_of_gt hh⟩, hbytes⟩, hw', hh'⟩, hdata⟩

/-! ## The three ways a grid's ENCODE ends -/

theorem exec_encode_of_refused (hg : s.grid = some g) (henc : ¬ g.Encodable s.conf.compressor) :
    exec .encode s = .next (respond (.err .unsupportedDimensions none) s) := by
  change execEncode s = _
  simp only [execEncode, hg, encodeCheck_iff, henc, if_false, raise]

theorem exec_encode_of_ok (hg : s.grid = some g) (henc : g.Encodable s.conf.compressor)
    (hok : sinkAnswer (encodeGrid s.conf.compressor g) s = .ok) :
    exec .encode s = .next (respond (.ok (.count (encodeGrid s.conf.compressor g).length))
      (writeFile (.content (encodeGrid s.conf.compressor g)) (sinkWritten (encodeGrid s.conf.compressor g) s))) := by
  change execEncode s = _
  simp only [execEncode, hg, encodeCheck_iff, henc, if_true, hok, done]

theorem exec_encode_of_fail {code : Word} (hg : s.grid = some g) (henc : g.Encodable s.conf.compressor)
    (hfail : sinkAnswer (encodeGrid s.conf.compressor g) s = .fail code) :
    exec .encode s = .next (respond (.err .ioFailure (some code))
      (writeFile .indeterminate (sinkWritten (encodeGrid s.conf.compressor g) s))) := by
  change execEncode s = _
  simp only [execEncode, hg, encodeCheck_iff, henc, if_true, hfail, raise]

/-- Settles O58: a grid that is accepted is answered by the count or by IOFailure, as the sink decides. -/
theorem encodeRefusesExactlyTheUnsupported : Obligations.EncodeRefusesExactlyTheUnsupported := by
  refine fun s g hg => ⟨exec_encode_of_refused hg, fun henc => ?_⟩
  cases hsink : sinkAnswer (encodeGrid s.conf.compressor g) s with
  | ok => exact ⟨_, _, exec_encode_of_ok hg henc hsink, rfl, by simp⟩
  | fail code => exact ⟨_, _, exec_encode_of_fail hg henc hsink, rfl, by simp⟩

/-- Settles O59: the bytes presented are the encoded grid. -/
theorem encodeOkFileDecodesToTheGrid : Obligations.EncodeOkFileDecodesToTheGrid :=
  fun _ _ hg hwf henc hok => ⟨_, exec_encode_of_ok hg henc hok, decodeRaster_encodeGrid hwf henc⟩

/-- Settles O60: the error keeps the two writes that came before it. -/
theorem encodePassesTheSinkFailureOn : Obligations.EncodePassesTheSinkFailureOn :=
  fun _ _ _ => exec_encode_of_fail

/-! ## The one write -/

/-- Only the write of ENCODE reaches the byte port. -/
theorem HasEffect.sinkOut {i : Instr} {e : Effect} (he : HasEffect s i e) :
    (e.apply s).sinkOut = s.sinkOut ∨
      i = .encode ∧ ∃ g, s.grid = some g ∧ (e.apply s).sinkOut = s.sinkOut ++ [encodeGrid s.conf.compressor g] := by
  cases he with
  | encode hg _ => exact .inr ⟨rfl, _, hg, rfl⟩
  | _ => exact .inl (by simp)

/-- Settles O28: a response leaves the byte port alone. -/
theorem sinkWrittenOnceByEncodeOnly : Obligations.SinkWrittenOnceByEncodeOnly := by
  intro i s t h
  obtain ⟨r, e, he, rfl⟩ := exec_cases h
  simpa using he.sinkOut

end Sys2Proof.Machine
end

section
/-! PROOFS. StoredDeflate and COMPRESS meet the contract, and which streams ZlibDecode accepts
(spec/45_deflate_zlib.md R190, R191, R202, R203). -/

namespace Sys2Proof.Machine

/-- Settles O54: each stored block is read back whole, by induction over the blocks. -/
theorem storedDeflateIsInverted : Obligations.StoredDeflateIsInverted :=
  fun b => ⟨zlibDecode_storedDeflate b, storedDeflate_length b⟩

/-- Settles O55: the uninterpreted compressor is let through only where it is inverted, and StoredDeflate (O54) stands
in for it elsewhere. -/
theorem compressMeetsItsContract : Obligations.CompressMeetsItsContract :=
  zlibDecode_compress

/-! ## The frame of a zlib stream -/

/-- The header fields of R191 as numbers: CM is 8, CINFO at most 7, FDICT is 0, and FCHECK holds. -/
theorem zlibHeaderOk_iff {cmf flg : Byte} :
    zlibHeaderOk cmf flg = true ↔ cmf.toNat % 16 = 8 ∧ cmf.toNat / 16 ≤ 7 ∧ flg.getLsbD 5 = false ∧
      (cmf.toNat * 256 + flg.toNat) % 31 = 0 := by
  have hcm : cmf.extractLsb' 0 4 = 8 ↔ cmf.toNat % 16 = 8 := by simp [← BitVec.toNat_inj]
  have hcinfo : (cmf.extractLsb' 4 4).toNat = cmf.toNat / 16 := by
    rw [BitVec.extractLsb'_toNat, Nat.shiftRight_eq_div_pow]
    omega
  simp only [zlibHeaderOk, Bool.and_eq_true, beq_iff_eq, decide_eq_true_eq, Bool.not_eq_true', hcm, hcinfo, and_assoc]

/-- ZlibDecode on a stream long enough for a header: the three checks of R202. -/
theorem zlibDecode_cons_iff {cmf flg : Byte} {rest out : List Byte} :
    zlibDecode (cmf :: flg :: rest) = some out ↔ zlibHeaderOk cmf flg = true ∧ ∃ used,
      inflate rest = some (out, used) ∧ rest.length = used + 4 ∧ rest.drop used = be32 (adler32 out) := by
  rw [zlibDecode]
  by_cases hheader : zlibHeaderOk cmf flg = true
  · cases hinflate : inflate rest with
    | none => simp [hheader]
    | some result =>
      obtain ⟨out', used⟩ := result
      simp only [hheader, if_true, true_and, Option.ite_none_right_eq_some, Option.some.injEq, Prod.mk.injEq]
      constructor
      · rintro ⟨hframe, rfl⟩
        exact ⟨used, ⟨rfl, rfl⟩, hframe⟩
      · rintro ⟨_, ⟨rfl, rfl⟩, hframe⟩
        exact ⟨hframe, rfl⟩
  · simp [hheader]

/-- `used` bytes with the four-byte trailer `be32 n` behind them, by length and tail or by the bytes in front. -/
theorem length_and_drop_eq_be32_iff {rest : List Byte} {used n : Nat} :
    rest.length = used + 4 ∧ rest.drop used = be32 n ↔ ∃ d : List Byte, rest = d ++ be32 n ∧ d.length = used := by
  constructor
  · rintro ⟨hlen, htrailer⟩
    exact ⟨rest.take used, by rw [← htrailer, List.take_append_drop], by rw [List.length_take]; omega⟩
  · rintro ⟨d, rfl, rfl⟩
    simp

/-- Settles O56: the stream is cut where Inflate stopped. -/
theorem zlibDecodeChecksItsFrame : Obligations.ZlibDecodeChecksItsFrame := by
  intro z out
  constructor
  · intro h
    match z with
    | [] | [_] => cases h
    | cmf :: flg :: rest =>
      obtain ⟨hheader, used, hinflate, htrailer⟩ := zlibDecode_cons_iff.mp h
      obtain ⟨d, rfl, rfl⟩ := length_and_drop_eq_be32_iff.mp htrailer
      obtain ⟨hcm, hcinfo, hdict, hcheck⟩ := zlibHeaderOk_iff.mp hheader
      exact ⟨cmf, flg, d, rfl, hcm, hcinfo, hdict, hcheck, hinflate⟩
  · rintro ⟨cmf, flg, d, rfl, hcm, hcinfo, hdict, hcheck, hinflate⟩
    exact zlibDecode_cons_iff.mpr ⟨zlibHeaderOk_iff.mpr ⟨hcm, hcinfo, hdict, hcheck⟩, d.length, hinflate,
      length_and_drop_eq_be32_iff.mpr ⟨d, rfl, rfl⟩⟩

end Sys2Proof.Machine
end

section
/-! PROOFS. How a command ends, what an error leaves, and the illegal command (spec/60_exceptions.md R220, R227, R229). -/

namespace Sys2Proof.Machine

variable {s t : State} {i : Instr} {k : ErrKind} {info : Option Word}

/-- The next states of a command that starts in `s`: only a failed sink write is an error that has written (R229). -/
inductive Ending (s : State) : State → Prop
  | ok (p : Payload) (e : Effect) : Ending s (respond (.ok p) (e.apply s))
  | error {k : ErrKind} (kind : k ≠ .ioFailure) : Ending s (respond (.err k none) s)
  | sinkFailure (code : Word) (bytes : List Byte) :
      Ending s (respond (.err .ioFailure (some code)) (writeFile .indeterminate (sinkWritten bytes s)))

theorem exec_ending (h : exec i s = .next t) : Ending s t := by
  cases i with
  | bvnew sel n val =>
    obtain ⟨-, rfl⟩ | ⟨-, rfl⟩ := execBvnew_cases h
    · exact .ok _ (.vector sel _)
    · exact .error (by decide)
  | bvset sel a b k val =>
    obtain ⟨-, rfl⟩ | ⟨v, -, ⟨-, rfl⟩ | ⟨-, -, rfl⟩ | ⟨v', -, -, rfl⟩⟩ := execBvset_cases h
    · exact .error (by decide)
    · exact .error (by decide)
    · exact .error (by decide)
    · exact .ok _ (.vector sel _)
  | bvget sel j =>
    obtain ⟨-, rfl⟩ | ⟨v, -, ⟨-, rfl⟩ | ⟨b, -, rfl⟩⟩ := execBvget_cases h
    · exact .error (by decide)
    · exact .error (by decide)
    · exact .ok _ .nothing
  | bvpack sel =>
    obtain ⟨-, rfl⟩ | ⟨v, -, rfl⟩ := execBvpack_cases h
    · exact .error (by decide)
    · exact .ok _ .nothing
  | apmnew w h' val =>
    obtain ⟨-, -, rfl⟩ | ⟨-, rfl⟩ := execApmnew_cases h
    · exact .ok _ (.bothVectors _ _)
    · exact .error (by decide)
  | apmclr x y w h' =>
    obtain ⟨-, rfl⟩ | ⟨c, r, -, -, ⟨-, rfl⟩ | ⟨c', r', -, -, rfl⟩⟩ := execApmclr_cases h
    · exact .error (by decide)
    · exact .error (by decide)
    · exact .ok _ (.bothVectors _ _)
  | emitcfg pol =>
    obtain ⟨-, rfl⟩ | ⟨c, r, -, -, rfl⟩ := execEmitcfg_cases h
    · exact .error (by decide)
    · exact .ok _ .nothing
  | compose pol flip =>
    obtain ⟨-, rfl⟩ | ⟨c, r, -, -, rfl⟩ := execCompose_cases h
    · exact .error (by decide)
    · exact .ok _ (.grid _)
  | encode =>
    obtain ⟨-, rfl⟩ | ⟨g, -, ⟨-, rfl⟩ | ⟨-, -, rfl⟩ | ⟨code, -, -, rfl⟩⟩ := execEncode_cases h
    · exact .error (by decide)
    · exact .error (by decide)
    · exact .ok _ (.image _ _)
    · exact .sinkFailure code _

/-- A command that answers an error has done nothing else, or its sink write has failed. -/
theorem exec_error (h : exec i s = .next t) (hr : t.respOut = s.respOut ++ [.err k info]) :
    (k ≠ .ioFailure ∧ t = respond (.err k info) s) ∨
      k = .ioFailure ∧ ∃ bytes, t = respond (.err k info) (writeFile .indeterminate (sinkWritten bytes s)) := by
  cases exec_ending h with
  | ok p e => simp at hr
  | error kind =>
    cases List.append_cancel_left hr
    exact .inl ⟨kind, rfl⟩
  | sinkFailure code bytes =>
    cases List.append_cancel_left hr
    exact .inr ⟨rfl, bytes, rfl⟩

/-- Settles O13: a waiting step answers nothing, an illegal command is only answered, and a command that answers an
error is as `exec_error` says. -/
theorem errorLeavesStateAsBefore : Obligations.ErrorLeavesStateAsBefore := by
  intro s t k info h hr
  obtain ⟨-, rfl⟩ | ⟨-, why, rest, -, rfl⟩ | ⟨-, i, rest, -, hexec⟩ := step_cases h
  · simp at hr
  · cases List.append_cancel_left hr
    exact ⟨rfl, rfl, rfl, fun _ => rfl, nofun⟩
  · obtain ⟨hkind, rfl⟩ | ⟨hkind, bytes, rfl⟩ := exec_error hexec hr
    · exact ⟨rfl, rfl, rfl, fun _ => rfl, fun hio => absurd hio hkind⟩
    · exact ⟨rfl, rfl, rfl, fun hne => absurd hkind hne, fun _ => rfl⟩

/-- Settles O9: a header no row matches decodes to an illegal command, which the step answers. -/
theorem illegalCommandIsConsumedAndAnswered : Obligations.IllegalCommandIsConsumedAndAnswered := by
  intro s h ws hfree hcmd hlen hno
  obtain ⟨why, hdecode⟩ := decode_of_no_row hlen fun op hh => hno op (and_maskWord_eq_iff.2 hh)
  rw [← hcmd] at hdecode
  exact step_of_illegal hfree hdecode

end Sys2Proof.Machine
end

section
/-! PROOFS. What a command answers when a register it reads holds nothing, and when an operand violates a precondition
(spec/60_exceptions.md R225, R226, R228). -/

namespace Sys2Proof.Machine

variable {s : State} {sel : Sel} {val : Bool}

/-! ## Reading nothing -/

theorem exec_bvset_of_not_constructed {a b k : Nat} (hv : readV sel s = none) :
    exec (.bvset sel a b k val) s = .next (respond (.err .notConstructed none) s) := by
  change execBvset sel a b k val s = _
  simp only [execBvset, hv, raise]

theorem exec_bvpack_of_not_constructed (hv : readV sel s = none) :
    exec (.bvpack sel) s = .next (respond (.err .notConstructed none) s) := by
  change execBvpack sel s = _
  simp only [execBvpack, hv, raise]

theorem exec_emitcfg_of_not_constructed (pol : Policy) (hnone : s.cols = none ∨ s.rows = none) :
    exec (.emitcfg pol) s = .next (respond (.err .notConstructed none) s) := by
  obtain ⟨r, e, hrun⟩ := exec_total (.emitcfg pol) s
  obtain ⟨-, ht⟩ | ⟨c, r, hc, hr, -⟩ := execEmitcfg_cases hrun
  · rw [hrun, ht]
  · simp [hc, hr] at hnone

theorem exec_compose_of_not_constructed (pol : Policy) (flip : Bool) (hnone : s.cols = none ∨ s.rows = none) :
    exec (.compose pol flip) s = .next (respond (.err .notConstructed none) s) := by
  obtain ⟨r, e, hrun⟩ := exec_total (.compose pol flip) s
  obtain ⟨-, ht⟩ | ⟨c, r, hc, hr, -⟩ := execCompose_cases hrun
  · rw [hrun, ht]
  · simp [hc, hr] at hnone

theorem exec_encode_of_not_constructed (hg : s.grid = none) :
    exec .encode s = .next (respond (.err .notConstructed none) s) := by
  change execEncode s = _
  simp only [execEncode, hg, raise]

/-- Settles O21, command by command; BVGET's part of it is O34's. -/
theorem readingNothingIsNotConstructed : Obligations.ReadingNothingIsNotConstructed := by
  refine ⟨fun s sel hv => ⟨?_, ?_, ?_⟩, fun s hnone => ⟨?_, ?_, ?_⟩, fun s => exec_encode_of_not_constructed⟩
  · exact fun a b k val => exec_bvset_of_not_constructed hv
  · intro i
    obtain ⟨-, -, hnothing⟩ := bvgetReadsTheElement s sel i
    exact hnothing hv
  · exact exec_bvpack_of_not_constructed hv
  · exact fun x y w h => exec_apmclr_of_not_constructed hnone
  · exact fun pol => exec_emitcfg_of_not_constructed pol hnone
  · exact fun pol flip => exec_compose_of_not_constructed pol flip hnone

/-! ## Violated preconditions -/

theorem exec_bvnew_of_not_withinMax {n : Nat} (h : ¬ WithinMax s.conf n) :
    exec (.bvnew sel n val) s = .next (respond (.err .invalidArgument none) s) :=
  if_neg (mt fitsMax_iff.1 h)

theorem exec_apmnew_of_not_withinMax {w h : Nat} (hout : ¬ (WithinMax s.conf w ∧ WithinMax s.conf h)) :
    exec (.apmnew w h val) s = .next (respond (.err .invalidArgument none) s) := by
  have hfits : ¬ (fitsMax s.conf w && fitsMax s.conf h) = true := by
    rwa [Bool.and_eq_true, fitsMax_iff, fitsMax_iff]
  exact if_neg hfits

theorem exec_bvset_of_step_zero {v : BoolVec} {a b : Nat} (hv : readV sel s = some v) :
    exec (.bvset sel a b 0 val) s = .next (respond (.err .invalidArgument none) s) := by
  change execBvset sel a b 0 val s = _
  simp only [execBvset, hv, if_true, raise]

/-- Settles O30: a BVSET with stride 0 still answers NotConstructed where the register holds nothing (R228). -/
theorem violatedPreconditionChangesNothing : Obligations.ViolatedPreconditionChangesNothing := by
  refine ⟨fun s sel n val hout => ⟨_, _, exec_bvnew_of_not_withinMax hout⟩,
    fun s w h val hout => ⟨_, _, exec_apmnew_of_not_withinMax hout⟩, fun s sel a b val => ?_⟩
  cases hv : readV sel s with
  | none => exact ⟨_, _, exec_bvset_of_not_constructed hv⟩
  | some v => exact ⟨_, _, exec_bvset_of_step_zero hv⟩

end Sys2Proof.Machine
end

section
/-! PROOFS. Reset, and what a step leaves of the configuration and of what the ports have carried
(spec/30_encoding.md R60, spec/70_reset_and_hazards.md R250, R251). -/

namespace Sys2Proof.Machine

/-! ## Reset -/

/-- Settles O18: `State.reset` and `applyReset` name the four pieces of state, and `applyReset` no configuration. -/
theorem resetLeavesNothingConstructed : Obligations.ResetLeavesNothingConstructed :=
  ⟨⟨rfl, rfl, rfl, rfl⟩,
    fun s => ⟨applyReset_cols s, applyReset_rows s, applyReset_grid s, applyReset_file s, applyReset_conf s⟩⟩

/-! ## Configuration and ports -/

namespace Effect

variable (e : Effect) (s : State)

@[simp] theorem apply_conf : (e.apply s).conf = s.conf := by cases e <;> simp

theorem sinkOut_prefix_apply : s.sinkOut <+: (e.apply s).sinkOut := by
  cases e with
  | image bytes f => exact List.prefix_append _ [bytes]
  | _ => simp

end Effect

/-- Settles O19: a step waits, answers an illegal command, or does one write and one response, and a write is at most
one more entry on the byte port. -/
theorem stepOnlyExtendsThePorts : Obligations.StepOnlyExtendsThePorts := by
  intro s t h
  obtain ⟨-, rfl⟩ | ⟨-, why, rest, -, rfl⟩ | ⟨-, i, rest, -, hexec⟩ := step_cases h
  · exact ⟨rfl, List.prefix_rfl, List.prefix_rfl⟩
  · exact ⟨rfl, List.prefix_append _ _, List.prefix_rfl⟩
  · obtain ⟨r, e, -, rfl⟩ := exec_cases hexec
    exact ⟨by simp, by simp, e.sinkOut_prefix_apply (consumed rest s)⟩

end Sys2Proof.Machine
end
